-- ==== Sys2Proof/Word.lean ====
section
/-!
DEFINITION. The word and the byte of the machine (spec/00_scope.md rule R8).
The width W is a parameter, so a word is what R8 says it is: a natural number in [0, 2^W). In every
file a word has the type `Nat`, and its range is part of the invariant of Safety.lean (log entry 2).
-/

namespace Sys2Proof

/-- `v` is a word of a machine whose words have `w` bits (R8). -/
abbrev IsWord (w : Nat) (v : Nat) : Prop := v < 2 ^ w

/-- A byte of the output stream (spec/10_state.md rule R36). -/
abbrev Byte := BitVec 8

end Sys2Proof
end

