-- ==== Sys2Proof/Machine/Faults.lean ====
section
/-!
DEFINITION. The nine fault kinds of spec/60_exceptions.md rule R220 with the value each records
(its "info" column) and its numeric code. They are raised by instructions and recorded in the
machine's `err`; they are not the outcomes that end a Lean step (those are `Machine.Fault`).
-/

namespace Sys2Proof.Machine

/-- A raised fault: its kind and its info value (R220). -/
inductive Err where
  /-- The word at `pc` is no opcode; info the word (spec/40_loop_and_halt.md rule R112). -/
  | unrecognizedOperation (word : Nat)
  /-- A register operand word above 7; info the word (R114). -/
  | registerOutOfBounds (word : Nat)
  /-- An LD address outside the user-data region; info the address, possibly negative (R131). -/
  | offsetOutOfBounds (addr : Int)
  /-- A fetch, or the next sequential address, at or beyond MEMORY_MAX; info the address (R53, R116). -/
  | outOfBounds (addr : Nat)
  /-- A code sequence too long for the code region; info its length (R253). Only LoadCode raises it. -/
  | codeTooLarge (len : Nat)
  /-- LBL with a full label table (R203). -/
  | tooManyLabels
  /-- A taken jump to a name no entry has; info the name (R202). -/
  | undefinedLabel (name : List Nat)
  /-- DIV or DIVI with a zero divisor (R149, R150). -/
  | divisionByZero
  /-- More than NAME_MAX non-zero words after the opcode; info the address of the first (R115). -/
  | nameTooLong (addr : Nat)
deriving DecidableEq, Repr

/-- The numeric code of a fault kind (R220, decision D21). -/
def Err.code : Err → Nat
  | .unrecognizedOperation _ => 1
  | .registerOutOfBounds _ => 2
  | .offsetOutOfBounds _ => 3
  | .outOfBounds _ => 4
  | .codeTooLarge _ => 5
  | .tooManyLabels => 6
  | .undefinedLabel _ => 7
  | .divisionByZero => 8
  | .nameTooLong _ => 9

/-- The numeric code of `err`, 0 for `None` (R220). -/
def errCode : Option Err → Nat
  | none => 0
  | some e => e.code

end Sys2Proof.Machine
end

