-- ==== Sys2Proof/Config.lean ====
section
/-!
DEFINITION. What an implementation fixes (spec/00_scope.md rule R5): the configuration record CFG,
the opcode map OPC, and the one free value of the model, the launch memory MEM0 (spec/10_state.md
rule R33). The numbers of the spec's two configurations stand in Machine/Params.lean.
-/

namespace Sys2Proof

/-- The 29 mnemonics of spec/30_encoding.md rule R90, in its order: the domain of OPC. -/
inductive Op where
  | halt | ld | ldi | st
  | add | addi | sub | subi | mul | muli | div | divi
  | ceq | cgr | clo | cge | cle | cne
  | jmp | jt | jf | jz | jnz | jn | jnn
  | putn | puts | flush | lbl
deriving DecidableEq, Repr

/-- The opcode map OPC (R5, decision D6): one word value for each mnemonic. -/
structure Opc where
  halt : Nat
  ld : Nat
  ldi : Nat
  st : Nat
  add : Nat
  addi : Nat
  sub : Nat
  subi : Nat
  mul : Nat
  muli : Nat
  div : Nat
  divi : Nat
  ceq : Nat
  cgr : Nat
  clo : Nat
  cge : Nat
  cle : Nat
  cne : Nat
  jmp : Nat
  jt : Nat
  jf : Nat
  jz : Nat
  jnz : Nat
  jn : Nat
  jnn : Nat
  putn : Nat
  puts : Nat
  flush : Nat
  lbl : Nat
deriving DecidableEq, Repr

/-- The configuration record CFG (R5). -/
structure Cfg where
  /-- `W`: the bits of a memory word and of every register. -/
  w : Nat
  /-- `MEMORY_MAX`: the words in memory. -/
  memoryMax : Nat
  /-- `LABEL_MAX`: the capacity of the label table. -/
  labelMax : Nat
  /-- `NAME_MAX`: the most characters a label name may have. -/
  nameMax : Nat
  /-- `OPC`: the opcode of each mnemonic. -/
  opc : Opc
deriving DecidableEq, Repr

/-- All mnemonics, in the order of R90. -/
def Op.all : List Op :=
  [.halt, .ld, .ldi, .st, .add, .addi, .sub, .subi, .mul, .muli, .div, .divi,
   .ceq, .cgr, .clo, .cge, .cle, .cne, .jmp, .jt, .jf, .jz, .jnz, .jn, .jnn,
   .putn, .puts, .flush, .lbl]

/-- The word value OPC gives a mnemonic. -/
def Opc.code (o : Opc) : Op → Nat
  | .halt => o.halt
  | .ld => o.ld
  | .ldi => o.ldi
  | .st => o.st
  | .add => o.add
  | .addi => o.addi
  | .sub => o.sub
  | .subi => o.subi
  | .mul => o.mul
  | .muli => o.muli
  | .div => o.div
  | .divi => o.divi
  | .ceq => o.ceq
  | .cgr => o.cgr
  | .clo => o.clo
  | .cge => o.cge
  | .cle => o.cle
  | .cne => o.cne
  | .jmp => o.jmp
  | .jt => o.jt
  | .jf => o.jf
  | .jz => o.jz
  | .jnz => o.jnz
  | .jn => o.jn
  | .jnn => o.jnn
  | .putn => o.putn
  | .puts => o.puts
  | .flush => o.flush
  | .lbl => o.lbl

/-- The constraints R5 puts on a configuration: `W >= 8`, `MEMORY_MAX` even and in
`[2, 2^W]`, `LABEL_MAX >= 1`, `NAME_MAX >= 1`, and OPC an injective map into the words. -/
abbrev Cfg.Wf (c : Cfg) : Prop :=
  8 ≤ c.w ∧ c.memoryMax % 2 = 0 ∧ 2 ≤ c.memoryMax ∧ c.memoryMax ≤ 2 ^ c.w ∧
  1 ≤ c.labelMax ∧ 1 ≤ c.nameMax ∧
  (∀ o ∈ Op.all, IsWord c.w (c.opc.code o)) ∧
  (∀ o ∈ Op.all, ∀ p ∈ Op.all, c.opc.code o = c.opc.code p → o = p)

/-- FREE VALUE: the launch parameter MEM0 of R33 (decision D24, U2; log entry 4). The word a cell
that nothing has written holds is unspecified: `Config.mem0 launch address`, reduced to a word where
it is read. The first argument counts resets, because every reset leaves memory unspecified anew
(spec/70_reset_and_hazards.md rule R250). No proof can see its value. -/
opaque Config.mem0 : Nat → Nat → Nat

end Sys2Proof
end

