-- ==== Sys2Proof/Machine/Params.lean ====
section
/-!
DEFINITION. The constants derived from a configuration (spec/00_scope.md rule R6) and the two named
configurations with the default opcode map (rules R7, R90). No statement about the machine depends
on the numbers of `Cfg.ref` and `Cfg.tiny`.
-/

namespace Sys2Proof

/-- `DATA_START` (R6). -/
def Cfg.dataStart (_ : Cfg) : Nat := 0

/-- `DATA_END = MEMORY_MAX / 2` (R6, decision D3). -/
def Cfg.dataEnd (c : Cfg) : Nat := c.memoryMax / 2

/-- `CODE_START = MEMORY_MAX / 2` (R6, decision D3): the entry point (R251). -/
def Cfg.codeStart (c : Cfg) : Nat := c.memoryMax / 2

/-- `CODE_END = MEMORY_MAX` (R6). -/
def Cfg.codeEnd (c : Cfg) : Nat := c.memoryMax

/-- `CODE_CAP = CODE_END - CODE_START` (R6). -/
def Cfg.codeCap (c : Cfg) : Nat := c.codeEnd - c.codeStart

/-- `READ_BASE = 0`, the constant base of LD (R6, R130, decision D15). -/
def Cfg.readBase (_ : Cfg) : Int := 0

/-- The default opcode numbers, 0 to 28 in the order of R90 (decision D6). -/
def Opc.default : Opc where
  halt := 0
  ld := 1
  ldi := 2
  st := 3
  add := 4
  addi := 5
  sub := 6
  subi := 7
  mul := 8
  muli := 9
  div := 10
  divi := 11
  ceq := 12
  cgr := 13
  clo := 14
  cge := 15
  cle := 16
  cne := 17
  jmp := 18
  jt := 19
  jf := 20
  jz := 21
  jnz := 22
  jn := 23
  jnn := 24
  putn := 25
  puts := 26
  flush := 27
  lbl := 28

/-- `CFG_REF` (R7). -/
def Cfg.ref : Cfg where
  w := 16
  memoryMax := 65536
  labelMax := 32
  nameMax := 31
  opc := Opc.default

/-- `CFG_TINY` (R7). -/
def Cfg.tiny : Cfg where
  w := 8
  memoryMax := 64
  labelMax := 2
  nameMax := 3
  opc := Opc.default

end Sys2Proof
end

