-- ==== Sys2Proof/Machine/State.lean ====
section
/-!
DEFINITION. The state of the MVM core (spec/10_state.md), as plain data, and the state after reset
(rule R38). Two fields are the model's own, not the spec's: `cfg`, the configuration the machine was
built with (log entry 1), and `launch`, which selects the unspecified launch memory (log entry 4).
-/

namespace Sys2Proof.Machine

/-- The flag register's three values (R27): FL_NONE, FL_ZERO, FL_NEG. Their numerals are shown by
`readRegs` only (log entry 26). -/
inductive Flag where
  | none
  | zero
  | neg
deriving DecidableEq, Repr

/-- The run status. `running`, `halted` and `faulted` are those of R29. `idle` (after Reset) and
`loaded` (after a successful LoadCode) are the moments before Start, where the core takes no step
and the spec calls the status immaterial (R250, R252, R256; log entry 6). -/
inductive Status where
  | idle
  | loaded
  | running
  | halted
  | faulted
deriving DecidableEq, Repr

/-- The eight general registers R0 to R7 (R20). -/
structure Regs where
  r0 : Nat
  r1 : Nat
  r2 : Nat
  r3 : Nat
  r4 : Nat
  r5 : Nat
  r6 : Nat
  r7 : Nat
deriving DecidableEq, Repr

/-- An entry of the label table (R35): an immutable pair of an address and a name. -/
structure Label where
  address : Nat
  name : List Nat
deriving DecidableEq, Repr

/-- One word of memory at a word address. The machine's addressable unit is a W-bit word and there
is no byte addressing (R32), so a cell holds a word (log entry 3). -/
abbrev Cell := Nat × Nat

/-- The memory array (R32): the cells something has written since reset, addresses strictly rising.
A cell not listed has not been written and holds its launch word (R33, `memRead`). -/
abbrev Memory := List Cell

/-- The state of the machine: every piece of state of spec/10_state.md section 1. -/
structure State where
  /-- The configuration CFG (R5), constant. -/
  cfg : Cfg
  /-- R0 to R7 (R20). -/
  regs : Regs
  /-- The program counter (R23): the word address of the next instruction's opcode word. -/
  pc : Nat
  /-- The condition register (R26): true for 1, false for 0. -/
  cond : Bool
  /-- The flag register (R27). -/
  flag : Flag
  /-- The memory array (R32, R33). -/
  mem : Memory
  /-- The hidden write cursor (R34). -/
  wcur : Nat
  /-- The hidden label table (R35), oldest entry first. -/
  labels : List Label
  /-- The output stream (R36), oldest byte first. -/
  out : List Byte
  /-- The run status (R29). -/
  status : Status
  /-- The fault that ended the run, with its info value, or none (R30, R220). -/
  err : Option Err
  /-- How many resets came before: selects the launch memory MEM0 (R33). -/
  launch : Nat
deriving DecidableEq, Repr

/-- The outcomes of a step, or of a host operation, at which NO transition of the machine exists.
The spec's own fault kinds are not here: raising one is a next state (R224, `takeFault`). -/
inductive Fault where
  /-- A step was requested before Start: the core is idle (R250, R256). Raised by `step`. SAFE: the
  spec defines no step there (treatment `stuck` of U16). -/
  | notStarted
  /-- A step was requested in Halted: no step is defined (R119). Raised by `step`. SAFE. -/
  | alreadyHalted
  /-- A step was requested in Faulted: no step is defined (R119). Raised by `step`. SAFE. -/
  | alreadyFaulted
  /-- The host broke the order or the operands of R252 (U16: `stuck`). Raised by the host operations
  of Machine/Boundary.lean. SAFE. -/
  | hostProtocol
deriving DecidableEq, Repr

/-- Why an instruction has no meaning in the model. Every instruction of the table has one, so no
arm of `exec` refuses. -/
inductive Refusal where
  /-- The instruction with this mnemonic is not modelled. Raised by no arm of `exec`. SAFE. -/
  | notModelled (mnemonic : String)
deriving DecidableEq, Repr

/-- The state a reset leaves (R38, R250) in a machine of configuration `c`, with `n` resets before:
registers, cond, flag and cursor zero, tables and output empty, `pc` at CODE_START, no cell written,
the core idle. -/
def State.resetOf (c : Cfg) (n : Nat) : State where
  cfg := c
  regs := ⟨0, 0, 0, 0, 0, 0, 0, 0⟩
  pc := c.codeStart
  cond := false
  flag := .none
  mem := []
  wcur := 0
  labels := []
  out := []
  status := .idle
  err := none
  launch := n

/-- The machine right after reset, in the configuration CFG_REF (R7). -/
def State.reset : State := State.resetOf Cfg.ref 0

end Sys2Proof.Machine
end

