-- ==== Sys2Proof/Machine/Ops.lean ====
section
/-!
DEFINITION. The named operations over memory, registers, the label table, the output stream and the
run status, among them the two every instruction shares: raising a fault (spec/60_exceptions.md rule
R224) and the sequential advance (spec/40_loop_and_halt.md rule R116). There is no return from a
fault (rule R226): only reset leaves the Faulted status.
-/

namespace Sys2Proof.Machine

/-- The canonical form of a memory: addresses strictly rising, so at most one entry a cell. An
unlisted address reads as its launch word, which no entry can name, so every list in this form is
the one form of its contents (log entry 3). -/
abbrev Memory.Wf (m : Memory) : Prop := (m.map Prod.fst).Pairwise (· < ·)

/-- The canonical form as a Boolean. -/
def Memory.wf (m : Memory) : Bool := decide (Memory.Wf m)

/-- The word written at `a`, if something has been written there. -/
def memLookup (a : Nat) : Memory → Option Nat
  | [] => none
  | (b, v) :: m => if a = b then some v else memLookup a m

/-- The memory with the word `v` at `a`; every other cell as before. -/
def memInsert (a : Nat) (v : Nat) : Memory → Memory
  | [] => [(a, v)]
  | (b, u) :: m =>
    if a < b then (a, v) :: (b, u) :: m
    else if a = b then (a, v) :: m
    else (b, u) :: memInsert a v m

/-- The word a cell holds before anything writes it: the unspecified launch word MEM0 (R33), the
free value `Config.mem0` reduced to a word. This is the ONE definition of what an unlisted address
reads as (log entry 4). -/
def launchWord (s : State) (a : Nat) : Nat := Config.mem0 s.launch a % 2 ^ s.cfg.w

/-- `MemRead(a, 1)` (spec/20_memory.md rule R52): the last word written to the cell, or its launch
word. -/
def memRead (s : State) (a : Nat) : Nat :=
  match memLookup a s.mem with
  | some v => v
  | none => launchWord s a

/-- `MemWrite(a, 1, v)` (R52): sets one cell and changes no other. -/
def memWrite (a : Nat) (v : Nat) (s : State) : State := { s with mem := memInsert a v s.mem }

/-- The words of a list written to consecutive cells from `a` up (R253). -/
def memWriteList (a : Nat) : List Nat → State → State
  | [], s => s
  | v :: vs, s => memWriteList (a + 1) vs (memWrite a v s)

/-- `Fetch(a)` (R53): the word at `a`, or OutOfBounds at and beyond MEMORY_MAX. -/
def fetch (s : State) (a : Nat) : Except Err Nat :=
  if s.cfg.memoryMax ≤ a then .error (.outOfBounds a) else .ok (memRead s a)

/-- `WriteAppend(v)` (R57): writes at the cursor, which advances unless it stands at the last cell
of the user-data region. -/
def writeAppend (v : Nat) (s : State) : State :=
  let t := memWrite s.wcur v s
  if s.wcur < s.cfg.dataEnd - 1 then { t with wcur := s.wcur + 1 } else t

/-- Reading general register `i` (R20). -/
def Regs.get (r : Regs) : Fin 8 → Nat
  | 0 => r.r0
  | 1 => r.r1
  | 2 => r.r2
  | 3 => r.r3
  | 4 => r.r4
  | 5 => r.r5
  | 6 => r.r6
  | 7 => r.r7

/-- Writing general register `i` (R20): no register is hardwired. -/
def Regs.set (r : Regs) (v : Nat) : Fin 8 → Regs
  | 0 => { r with r0 := v }
  | 1 => { r with r1 := v }
  | 2 => { r with r2 := v }
  | 3 => { r with r3 := v }
  | 4 => { r with r4 := v }
  | 5 => { r with r5 := v }
  | 6 => { r with r6 := v }
  | 7 => { r with r7 := v }

/-- `x[i]`. -/
def getReg (i : Fin 8) (s : State) : Nat := s.regs.get i

/-- `x[i] <- v`. -/
def setReg (i : Fin 8) (v : Nat) (s : State) : State := { s with regs := s.regs.set v i }

/-- `pc <- a`. -/
def setPc (a : Nat) (s : State) : State := { s with pc := a }

/-- `cond <- b`. -/
def setCond (b : Bool) (s : State) : State := { s with cond := b }

/-- `flag <- f`. -/
def setFlag (f : Flag) (s : State) : State := { s with flag := f }

/-- `status <- st`. -/
def setStatus (st : Status) (s : State) : State := { s with status := st }

/-- `emit` of each byte in order (R36): the stream only grows at its end. -/
def emit (bs : List Byte) (s : State) : State := { s with out := s.out ++ bs }

/-- `Define(address, name)` (spec/46_label.md rule R201): appends an entry if capacity remains. -/
def define (address : Nat) (name : List Nat) (s : State) : State :=
  { s with labels := s.labels ++ [⟨address, name⟩] }

/-- The capacity check of `Define` (R201). -/
def labelRoom (s : State) : Except Err Unit :=
  if s.cfg.labelMax ≤ s.labels.length then .error .tooManyLabels else .ok ()

/-- `Resolve(name)` (R202): oldest entry first, whole-name match. -/
def resolve (name : List Nat) : List Label → Except Err Nat
  | [] => .error (.undefinedLabel name)
  | l :: ls => if l.name = name then .ok l.address else resolve name ls

/-- `NextPc(len)` (R116): the next sequential address, or OutOfBounds; the pc does not wrap. -/
def nextPc (len : Nat) (s : State) : Except Err Nat :=
  if s.cfg.memoryMax ≤ s.pc + len then .error (.outOfBounds (s.pc + len)) else .ok (s.pc + len)

/-- TAKING A FAULT (R224): `status <- Faulted`, `err <- K`, and nothing else changes; `pc` keeps the
address of the faulting instruction. -/
def takeFault (e : Err) (s : State) : State := { s with status := .faulted, err := some e }

/-- The end of an instruction: its writes if no check failed, else the fault on the state before it
(R10, R224). Both are next states. -/
def conclude (s : State) (r : Except Err State) : Host.Outcome State Fault Refusal :=
  match r with
  | .ok t => .next t
  | .error e => .next (takeFault e s)

end Sys2Proof.Machine
end

