-- ==== Sys2Proof/Machine/Operands.lean ====
section
/-!
DEFINITION. How operand words are read and how results are narrowed: `Reg`
(spec/40_loop_and_halt.md rule R114), `sext_W` (spec/00_scope.md rule R9), the reduction modulo 2^W
(spec/42_arithmetic.md rule R140), the bytes of the output instructions (spec/45_output.md).
-/

namespace Sys2Proof.Machine

/-- `Reg(v)` (R114): a register operand word as an index, or RegisterOutOfBounds above 7. -/
def regIdx (v : Nat) : Except Err (Fin 8) :=
  if h : v < 8 then .ok ⟨v, h⟩ else .error (.registerOutOfBounds v)

/-- `sext_w(v)` (R9, R85): the word read as a two's-complement integer. -/
def sext (w : Nat) (v : Nat) : Int :=
  if v < 2 ^ (w - 1) then (v : Int) else (v : Int) - (2 : Int) ^ w

/-- `res mod 2^w`, the non-negative remainder (R140). -/
def narrow (w : Nat) (res : Int) : Nat := (res % (2 : Int) ^ w).toNat

/-- The address LD forms (R131): READ_BASE plus the signed offset, or OffsetOutOfBounds outside the
user-data region. -/
def loadAddr (off : Nat) (s : State) : Except Err Nat :=
  let addr := s.cfg.readBase + sext s.cfg.w off
  if addr < (s.cfg.dataStart : Int) ∨ (s.cfg.dataEnd : Int) ≤ addr then
    .error (.offsetOutOfBounds addr)
  else .ok addr.toNat

/-- The base-ten digits of `v`, most significant first, in at most `fuel` digits. -/
def digits : Nat → Nat → List Nat
  | 0, _ => []
  | fuel + 1, v => if v < 10 then [v] else digits fuel (v / 10) ++ [v % 10]

/-- `Decimal(v)` (R190): the shortest base-ten numeral of an unsigned word, as ASCII bytes. -/
def decimal (v : Nat) : List Byte := (digits (v + 1) v).map (fun d => BitVec.ofNat 8 (0x30 + d))

/-- The byte a PUTS cell gives (R191): its value modulo 256. -/
def cellByte (ch : Nat) : Byte := BitVec.ofNat 8 ch

/-- The byte FLUSH emits (R192). -/
def newline : Byte := 0x0A#8

end Sys2Proof.Machine
end

