-- ==== Sys2Proof/Machine/Flags.lean ====
section
/-!
DEFINITION. Every computation of the two condition-bearing registers: `Classify`
(spec/42_arithmetic.md rule R141), the six relations (spec/43_compare.md rules R161 to R166) and the
conditions of the seven jumps (spec/44_jumps.md rule R171).
-/

namespace Sys2Proof.Machine

/-- `Classify(res)` (R141), from the exact result. -/
def classify (res : Int) : Flag :=
  if res = 0 then .zero else if res < 0 then .neg else .none

/-- Equal (R161). -/
def relEq (a b : Nat) : Bool := decide (a = b)

/-- Greater, unsigned (R162). -/
def relGr (a b : Nat) : Bool := decide (b < a)

/-- Lower, unsigned (R163). -/
def relLo (a b : Nat) : Bool := decide (a < b)

/-- Greater or equal, unsigned (R164). -/
def relGe (a b : Nat) : Bool := decide (b ≤ a)

/-- Lower or equal, unsigned (R165). -/
def relLe (a b : Nat) : Bool := decide (a ≤ b)

/-- Not equal (R166). -/
def relNe (a b : Nat) : Bool := decide (a ≠ b)

/-- JT is taken when `cond = 1` (R171). -/
def takenT (s : State) : Bool := s.cond

/-- JF is taken when `cond = 0` (R171). -/
def takenF (s : State) : Bool := !s.cond

/-- JZ is taken when `flag = FL_ZERO` (R171). -/
def takenZ (s : State) : Bool := decide (s.flag = .zero)

/-- JNZ is taken when `flag` is not FL_ZERO (R171). -/
def takenNZ (s : State) : Bool := decide (s.flag ≠ .zero)

/-- JN is taken when `flag = FL_NEG` (R171). -/
def takenN (s : State) : Bool := decide (s.flag = .neg)

/-- JNN is taken when `flag` is not FL_NEG (R171). -/
def takenNN (s : State) : Bool := decide (s.flag ≠ .neg)

end Sys2Proof.Machine
end

