-- ==== Sys2Proof/Machine/Arith.lean ====
section
/-!
DEFINITION. The eight arithmetic instructions (spec/42_arithmetic.md): the exact results of rule
R140, the two templates of rule R142 and one meaning an instruction.
-/

namespace Sys2Proof.Machine

/-- The exact sum (R140). -/
def addRes (a b : Nat) : Except Err Int := .ok ((a : Int) + (b : Int))

/-- The exact difference, negative when `a < b` (R140). -/
def subRes (a b : Nat) : Except Err Int := .ok ((a : Int) - (b : Int))

/-- The exact product (R140). -/
def mulRes (a b : Nat) : Except Err Int := .ok ((a : Int) * (b : Int))

/-- The quotient rounded down, or DivisionByZero (R149). -/
def divRes (a b : Nat) : Except Err Int :=
  if b = 0 then .error .divisionByZero else .ok ((a / b : Nat) : Int)

/-- The writes every arithmetic instruction ends with (R142): the destination gets the result
modulo 2^W, the flag its class, the pc the next address. -/
def arithWrite (d : Fin 8) (res : Int) (next : Nat) (s : State) : State :=
  setPc next (setFlag (classify res) (setReg d (narrow s.cfg.w res) s))

/-- `ArithRR` (R142): register and register. -/
def arithRR (f : Nat → Nat → Except Err Int) (ra rb rd : Nat) (s : State) : Except Err State := do
  let a ← regIdx ra
  let b ← regIdx rb
  let d ← regIdx rd
  let res ← f (getReg a s) (getReg b s)
  let next ← nextPc 4 s
  .ok (arithWrite d res next s)

/-- `ArithRI` (R142): register and unsigned immediate. -/
def arithRI (f : Nat → Nat → Except Err Int) (ra imm rd : Nat) (s : State) : Except Err State := do
  let a ← regIdx ra
  let d ← regIdx rd
  let res ← f (getReg a s) imm
  let next ← nextPc 4 s
  .ok (arithWrite d res next s)

/-- ADD (R143). -/
def execAdd (ra rb rd : Nat) (s : State) : Host.Outcome State Fault Refusal :=
  conclude s (arithRR addRes ra rb rd s)

/-- ADDI (R144). -/
def execAddi (ra imm rd : Nat) (s : State) : Host.Outcome State Fault Refusal :=
  conclude s (arithRI addRes ra imm rd s)

/-- SUB (R145). -/
def execSub (ra rb rd : Nat) (s : State) : Host.Outcome State Fault Refusal :=
  conclude s (arithRR subRes ra rb rd s)

/-- SUBI (R146). -/
def execSubi (ra imm rd : Nat) (s : State) : Host.Outcome State Fault Refusal :=
  conclude s (arithRI subRes ra imm rd s)

/-- MUL (R147). -/
def execMul (ra rb rd : Nat) (s : State) : Host.Outcome State Fault Refusal :=
  conclude s (arithRR mulRes ra rb rd s)

/-- MULI (R148). -/
def execMuli (ra imm rd : Nat) (s : State) : Host.Outcome State Fault Refusal :=
  conclude s (arithRI mulRes ra imm rd s)

/-- DIV (R149). -/
def execDiv (ra rb rd : Nat) (s : State) : Host.Outcome State Fault Refusal :=
  conclude s (arithRR divRes ra rb rd s)

/-- DIVI (R150). -/
def execDivi (ra imm rd : Nat) (s : State) : Host.Outcome State Fault Refusal :=
  conclude s (arithRI divRes ra imm rd s)

end Sys2Proof.Machine
end

