-- ==== Sys2Proof/Machine/Compare.lean ====
section
/-!
DEFINITION. The six comparisons (spec/43_compare.md): the template of rule R160 and one meaning an
instruction.
-/

namespace Sys2Proof.Machine

/-- `Compare(rel)` (R160): the relation of two registers' words, unsigned, into `cond`. -/
def compareRegs (rel : Nat → Nat → Bool) (ra rb : Nat) (s : State) : Except Err State := do
  let a ← regIdx ra
  let b ← regIdx rb
  let next ← nextPc 3 s
  .ok (setPc next (setCond (rel (getReg a s) (getReg b s)) s))

/-- CEQ (R161). -/
def execCeq (ra rb : Nat) (s : State) : Host.Outcome State Fault Refusal :=
  conclude s (compareRegs relEq ra rb s)

/-- CGR (R162). -/
def execCgr (ra rb : Nat) (s : State) : Host.Outcome State Fault Refusal :=
  conclude s (compareRegs relGr ra rb s)

/-- CLO (R163). -/
def execClo (ra rb : Nat) (s : State) : Host.Outcome State Fault Refusal :=
  conclude s (compareRegs relLo ra rb s)

/-- CGE (R164). -/
def execCge (ra rb : Nat) (s : State) : Host.Outcome State Fault Refusal :=
  conclude s (compareRegs relGe ra rb s)

/-- CLE (R165). -/
def execCle (ra rb : Nat) (s : State) : Host.Outcome State Fault Refusal :=
  conclude s (compareRegs relLe ra rb s)

/-- CNE (R166). -/
def execCne (ra rb : Nat) (s : State) : Host.Outcome State Fault Refusal :=
  conclude s (compareRegs relNe ra rb s)

end Sys2Proof.Machine
end

