-- ==== Sys2Proof/Machine/Control.lean ====
section
/-!
DEFINITION. HALT (spec/40_loop_and_halt.md rule R111).
-/

namespace Sys2Proof.Machine

/-- HALT (R111): `status <- Halted`, and nothing else; `pc` stays on the halt word. The loop tests
for it before the Executor (R110), so it makes no advance check (log entry 27). -/
def execHalt (s : State) : Host.Outcome State Fault Refusal := .next (setStatus .halted s)

end Sys2Proof.Machine
end

