-- ==== Sys2Proof/Machine/Jump.lean ====
section
/-!
DEFINITION. The seven jumps (spec/44_jumps.md): the template of rule R170 and one meaning an
instruction.
-/

namespace Sys2Proof.Machine

/-- `Jump(taken)` (R170): a taken jump resolves the name and makes no advance check; one not taken
never looks the name up and skips past it. -/
def jump (taken : Bool) (name : List Nat) (s : State) : Except Err State :=
  if taken then do
    let target ← resolve name s.labels
    .ok (setPc target s)
  else do
    let next ← nextPc (2 + name.length) s
    .ok (setPc next s)

/-- JMP (R172): always taken. -/
def execJmp (name : List Nat) (s : State) : Host.Outcome State Fault Refusal :=
  conclude s (jump true name s)

/-- JT (R173). -/
def execJt (name : List Nat) (s : State) : Host.Outcome State Fault Refusal :=
  conclude s (jump (takenT s) name s)

/-- JF (R174). -/
def execJf (name : List Nat) (s : State) : Host.Outcome State Fault Refusal :=
  conclude s (jump (takenF s) name s)

/-- JZ (R175). -/
def execJz (name : List Nat) (s : State) : Host.Outcome State Fault Refusal :=
  conclude s (jump (takenZ s) name s)

/-- JNZ (R176). -/
def execJnz (name : List Nat) (s : State) : Host.Outcome State Fault Refusal :=
  conclude s (jump (takenNZ s) name s)

/-- JN (R177). -/
def execJn (name : List Nat) (s : State) : Host.Outcome State Fault Refusal :=
  conclude s (jump (takenN s) name s)

/-- JNN (R178). -/
def execJnn (name : List Nat) (s : State) : Host.Outcome State Fault Refusal :=
  conclude s (jump (takenNN s) name s)

end Sys2Proof.Machine
end

