-- ==== Sys2Proof/Machine/LabelDef.lean ====
section
/-!
DEFINITION. LBL (spec/46_label.md rule R203).
-/

namespace Sys2Proof.Machine

/-- LBL (R203): the capacity check, then the advance check, then the entry binding the name to the
address after its terminator, where the pc goes too. -/
def execLbl (name : List Nat) (s : State) : Host.Outcome State Fault Refusal :=
  conclude s do
    let _ ← labelRoom s
    let next ← nextPc (2 + name.length) s
    .ok (setPc next (define next name s))

end Sys2Proof.Machine
end

