-- ==== Sys2Proof/Machine/LoadStore.lean ====
section
/-!
DEFINITION. LD, LDI and ST (spec/41_load_store.md). Their operand words are already fetched; the
checks stand in the rule's order and every write follows them.
-/

namespace Sys2Proof.Machine

/-- LD (R131): loads a user-data cell. -/
def execLd (rd off : Nat) (s : State) : Host.Outcome State Fault Refusal :=
  conclude s do
    let d ← regIdx rd
    let addr ← loadAddr off s
    let next ← nextPc 3 s
    .ok (setPc next (setReg d (memRead s addr) s))

/-- LDI (R132): the whole immediate word, unchanged; no flag is written. -/
def execLdi (rd imm : Nat) (s : State) : Host.Outcome State Fault Refusal :=
  conclude s do
    let d ← regIdx rd
    let next ← nextPc 3 s
    .ok (setPc next (setReg d imm s))

/-- ST (R133): appends at the write cursor and never faults for lack of room. -/
def execSt (rs : Nat) (s : State) : Host.Outcome State Fault Refusal :=
  conclude s do
    let r ← regIdx rs
    let next ← nextPc 2 s
    .ok (setPc next (writeAppend (getReg r s) s))

end Sys2Proof.Machine
end

