-- ==== Sys2Proof/Machine/Output.lean ====
section
/-!
DEFINITION. PUTN, PUTS and FLUSH (spec/45_output.md). An instruction that faults emits nothing
(rule R193): every check precedes the output.
-/

namespace Sys2Proof.Machine

/-- PUTN (R190): the unsigned decimal numeral of a register. -/
def execPutn (rs : Nat) (s : State) : Host.Outcome State Fault Refusal :=
  conclude s do
    let r ← regIdx rs
    let next ← nextPc 2 s
    .ok (setPc next (emit (decimal (getReg r s)) s))

/-- PUTS (R191): one byte a cell; a zero cell does not end the run. -/
def execPuts (chars : List Nat) (s : State) : Host.Outcome State Fault Refusal :=
  conclude s do
    let next ← nextPc (2 + chars.length) s
    .ok (setPc next (emit (chars.map cellByte) s))

/-- FLUSH (R192): the newline byte, and no flushing of anything. -/
def execFlush (s : State) : Host.Outcome State Fault Refusal :=
  conclude s do
    let next ← nextPc 1 s
    .ok (setPc next (emit [newline] s))

end Sys2Proof.Machine
end

