-- ==== Sys2Proof/Syntax.lean ====
section
/-!
DEFINITION. The 29 instructions of spec/30_encoding.md rule R90, one constructor a row, with their
operands in stream order (rule R81). A register operand is the operand WORD, not an index below 8:
a word above 7 is no illegal encoding (rule R92), it makes the instruction raise RegisterOutOfBounds
when it executes (rule R83), so the machine must see it (log entry 29).
-/

namespace Sys2Proof

/-- An instruction with its operand words. `rd`, `ra`, `rb`, `rs` are register operand words, `imm`
and `off` whole words, `name` the characters of a label name without the terminator (R86), `chars`
the character cells of PUTS, whose count word is their number (R87). -/
inductive Instr where
  | halt
  | ld (rd off : Nat)
  | ldi (rd imm : Nat)
  | st (rs : Nat)
  | add (ra rb rd : Nat)
  | addi (ra imm rd : Nat)
  | sub (ra rb rd : Nat)
  | subi (ra imm rd : Nat)
  | mul (ra rb rd : Nat)
  | muli (ra imm rd : Nat)
  | div (ra rb rd : Nat)
  | divi (ra imm rd : Nat)
  | ceq (ra rb : Nat)
  | cgr (ra rb : Nat)
  | clo (ra rb : Nat)
  | cge (ra rb : Nat)
  | cle (ra rb : Nat)
  | cne (ra rb : Nat)
  | jmp (name : List Nat)
  | jt (name : List Nat)
  | jf (name : List Nat)
  | jz (name : List Nat)
  | jnz (name : List Nat)
  | jn (name : List Nat)
  | jnn (name : List Nat)
  | putn (rs : Nat)
  | puts (chars : List Nat)
  | flush
  | lbl (name : List Nat)
deriving DecidableEq, Repr

end Sys2Proof
end

