-- ==== Sys2Proof/Machine/Dispatch.lean ====
section
/-!
DEFINITION. The dispatch of spec/40_loop_and_halt.md rule R113: one arm an instruction.
-/

namespace Sys2Proof.Machine

def exec (i : Instr) (s : State) : Host.Outcome State Fault Refusal :=
  match i with
  | .halt => Sys2Proof.Machine.execHalt s
  | .ld rd off => Sys2Proof.Machine.execLd rd off s
  | .ldi rd imm => Sys2Proof.Machine.execLdi rd imm s
  | .st rs => Sys2Proof.Machine.execSt rs s
  | .add ra rb rd => Sys2Proof.Machine.execAdd ra rb rd s
  | .addi ra imm rd => Sys2Proof.Machine.execAddi ra imm rd s
  | .sub ra rb rd => Sys2Proof.Machine.execSub ra rb rd s
  | .subi ra imm rd => Sys2Proof.Machine.execSubi ra imm rd s
  | .mul ra rb rd => Sys2Proof.Machine.execMul ra rb rd s
  | .muli ra imm rd => Sys2Proof.Machine.execMuli ra imm rd s
  | .div ra rb rd => Sys2Proof.Machine.execDiv ra rb rd s
  | .divi ra imm rd => Sys2Proof.Machine.execDivi ra imm rd s
  | .ceq ra rb => Sys2Proof.Machine.execCeq ra rb s
  | .cgr ra rb => Sys2Proof.Machine.execCgr ra rb s
  | .clo ra rb => Sys2Proof.Machine.execClo ra rb s
  | .cge ra rb => Sys2Proof.Machine.execCge ra rb s
  | .cle ra rb => Sys2Proof.Machine.execCle ra rb s
  | .cne ra rb => Sys2Proof.Machine.execCne ra rb s
  | .jmp name => Sys2Proof.Machine.execJmp name s
  | .jt name => Sys2Proof.Machine.execJt name s
  | .jf name => Sys2Proof.Machine.execJf name s
  | .jz name => Sys2Proof.Machine.execJz name s
  | .jnz name => Sys2Proof.Machine.execJnz name s
  | .jn name => Sys2Proof.Machine.execJn name s
  | .jnn name => Sys2Proof.Machine.execJnn name s
  | .putn rs => Sys2Proof.Machine.execPutn rs s
  | .puts chars => Sys2Proof.Machine.execPuts chars s
  | .flush => Sys2Proof.Machine.execFlush s
  | .lbl name => Sys2Proof.Machine.execLbl name s

end Sys2Proof.Machine
end

