-- ==== Sys2Proof/Decode.lean ====
section
/-!
DEFINITION. Reading an instruction from a run of words (spec/30_encoding.md rules R80 to R92) and
writing one as words. The decoder is given a `rd` that reads the word at an address or raises the
fault of that read; it fetches the opcode word, then the operand words in increasing address order,
and rejects with the fault the spec names: UnrecognizedOperation, OutOfBounds or NameTooLong.
It fetches every operand before anything is checked or done, as spec/60_exceptions.md rule R222
orders it (log entry 20).
-/

namespace Sys2Proof

open Machine (Err)

/-- The mnemonic an opcode word selects: the whole word is compared (R90), HALT first (R110). -/
def opOf (c : Cfg) (word : Nat) : Option Op :=
  Op.all.find? (fun o => c.opc.code o == word)

/-- `ReadName` (spec/40_loop_and_halt.md rule R115), with `room` characters still allowed and the
next one at `a`; `start` is the address of the first name word, recorded by NameTooLong. -/
def readName (rd : Nat → Except Err Nat) (start : Nat) : Nat → Nat → Except Err (List Nat)
  | 0, a => do
    let ch ← rd a
    if ch = 0 then .ok [] else .error (.nameTooLong start)
  | room + 1, a => do
    let ch ← rd a
    if ch = 0 then .ok []
    else do
      let rest ← readName rd start room (a + 1)
      .ok (ch :: rest)

/-- The `n` words from address `a` on, in increasing address order (R53, R191). -/
def readWords (rd : Nat → Except Err Nat) : Nat → Nat → Except Err (List Nat)
  | 0, _ => .ok []
  | n + 1, a => do
    let w ← rd a
    let rest ← readWords rd n (a + 1)
    .ok (w :: rest)

/-- One register operand word (formats FR, R81). -/
def readOne (rd : Nat → Except Err Nat) (a : Nat) (mk : Nat → Instr) : Except Err Instr := do
  let w1 ← rd (a + 1)
  .ok (mk w1)

/-- Two operand words (formats FRI and FRR, R81). -/
def readTwo (rd : Nat → Except Err Nat) (a : Nat) (mk : Nat → Nat → Instr) :
    Except Err Instr := do
  let w1 ← rd (a + 1)
  let w2 ← rd (a + 2)
  .ok (mk w1 w2)

/-- Three operand words (formats FRRR and FRIR, R81). -/
def readThree (rd : Nat → Except Err Nat) (a : Nat) (mk : Nat → Nat → Nat → Instr) :
    Except Err Instr := do
  let w1 ← rd (a + 1)
  let w2 ← rd (a + 2)
  let w3 ← rd (a + 3)
  .ok (mk w1 w2 w3)

/-- An inline name (format FN, R81, R86). -/
def readNamed (c : Cfg) (rd : Nat → Except Err Nat) (a : Nat) (mk : List Nat → Instr) :
    Except Err Instr := do
  let name ← readName rd (a + 1) c.nameMax (a + 1)
  .ok (mk name)

/-- A count word and that many character cells (format FS, R81, R87). -/
def readCounted (rd : Nat → Except Err Nat) (a : Nat) (mk : List Nat → Instr) :
    Except Err Instr := do
  let n ← rd (a + 1)
  let chars ← readWords rd n (a + 2)
  .ok (mk chars)

/-- The operands of the instruction whose opcode word is at `a` (the formats of R81, R90). -/
def decodeOperands (c : Cfg) (rd : Nat → Except Err Nat) (a : Nat) : Op → Except Err Instr
  | .halt => .ok .halt
  | .ld => readTwo rd a .ld
  | .ldi => readTwo rd a .ldi
  | .st => readOne rd a .st
  | .add => readThree rd a .add
  | .addi => readThree rd a .addi
  | .sub => readThree rd a .sub
  | .subi => readThree rd a .subi
  | .mul => readThree rd a .mul
  | .muli => readThree rd a .muli
  | .div => readThree rd a .div
  | .divi => readThree rd a .divi
  | .ceq => readTwo rd a .ceq
  | .cgr => readTwo rd a .cgr
  | .clo => readTwo rd a .clo
  | .cge => readTwo rd a .cge
  | .cle => readTwo rd a .cle
  | .cne => readTwo rd a .cne
  | .jmp => readNamed c rd a .jmp
  | .jt => readNamed c rd a .jt
  | .jf => readNamed c rd a .jf
  | .jz => readNamed c rd a .jz
  | .jnz => readNamed c rd a .jnz
  | .jn => readNamed c rd a .jn
  | .jnn => readNamed c rd a .jnn
  | .putn => readOne rd a .putn
  | .puts => readCounted rd a .puts
  | .flush => .ok .flush
  | .lbl => readNamed c rd a .lbl

/-- The instruction whose opcode word is at `a` (R88, R113), or the fault its reading raises; an
opcode word that selects nothing is UnrecognizedOperation, before any operand is read (R112). -/
def decodeAt (c : Cfg) (rd : Nat → Except Err Nat) (a : Nat) : Except Err Instr := do
  let word ← rd a
  match opOf c word with
  | none => .error (.unrecognizedOperation word)
  | some o => decodeOperands c rd a o

/-- Reading the `k`-th word of a list; beyond its end there is nothing to read (R53). -/
def listWord (ws : List Nat) (k : Nat) : Except Err Nat :=
  match ws[k]? with
  | some w => .ok w
  | none => .error (.outOfBounds k)

/-- The instruction at the head of a list of words. -/
def decodeWords (c : Cfg) (ws : List Nat) : Except Err Instr :=
  decodeAt c (listWord ws) 0

/-- The words of an instruction (R81, R82, R90): the opcode OPC gives it, its operand words in
stream order, a name's terminating zero, a PUTS count. -/
def encode (c : Cfg) : Instr → List Nat
  | .halt => [c.opc.halt]
  | .ld rd off => [c.opc.ld, rd, off]
  | .ldi rd imm => [c.opc.ldi, rd, imm]
  | .st rs => [c.opc.st, rs]
  | .add ra rb rd => [c.opc.add, ra, rb, rd]
  | .addi ra imm rd => [c.opc.addi, ra, imm, rd]
  | .sub ra rb rd => [c.opc.sub, ra, rb, rd]
  | .subi ra imm rd => [c.opc.subi, ra, imm, rd]
  | .mul ra rb rd => [c.opc.mul, ra, rb, rd]
  | .muli ra imm rd => [c.opc.muli, ra, imm, rd]
  | .div ra rb rd => [c.opc.div, ra, rb, rd]
  | .divi ra imm rd => [c.opc.divi, ra, imm, rd]
  | .ceq ra rb => [c.opc.ceq, ra, rb]
  | .cgr ra rb => [c.opc.cgr, ra, rb]
  | .clo ra rb => [c.opc.clo, ra, rb]
  | .cge ra rb => [c.opc.cge, ra, rb]
  | .cle ra rb => [c.opc.cle, ra, rb]
  | .cne ra rb => [c.opc.cne, ra, rb]
  | .jmp name => c.opc.jmp :: (name ++ [0])
  | .jt name => c.opc.jt :: (name ++ [0])
  | .jf name => c.opc.jf :: (name ++ [0])
  | .jz name => c.opc.jz :: (name ++ [0])
  | .jnz name => c.opc.jnz :: (name ++ [0])
  | .jn name => c.opc.jn :: (name ++ [0])
  | .jnn name => c.opc.jnn :: (name ++ [0])
  | .putn rs => [c.opc.putn, rs]
  | .puts chars => c.opc.puts :: chars.length :: chars
  | .flush => [c.opc.flush]
  | .lbl name => c.opc.lbl :: (name ++ [0])

/-- The length of an instruction in words (R82). -/
def instrLength : Instr → Nat
  | .halt => 1
  | .ld _ _ => 3
  | .ldi _ _ => 3
  | .st _ => 2
  | .add _ _ _ => 4
  | .addi _ _ _ => 4
  | .sub _ _ _ => 4
  | .subi _ _ _ => 4
  | .mul _ _ _ => 4
  | .muli _ _ _ => 4
  | .div _ _ _ => 4
  | .divi _ _ _ => 4
  | .ceq _ _ => 3
  | .cgr _ _ => 3
  | .clo _ _ => 3
  | .cge _ _ => 3
  | .cle _ _ => 3
  | .cne _ _ => 3
  | .jmp name => 2 + name.length
  | .jt name => 2 + name.length
  | .jf name => 2 + name.length
  | .jz name => 2 + name.length
  | .jnz name => 2 + name.length
  | .jn name => 2 + name.length
  | .jnn name => 2 + name.length
  | .putn _ => 2
  | .puts chars => 2 + chars.length
  | .flush => 1
  | .lbl name => 2 + name.length

/-- The `k`-th word of an instruction given as one number, bit 0 the least significant bit of the
first word, later words counting on from it; bits from `nbits` up are 0. -/
def tableWord (width nbits w k : Nat) : Nat :=
  w % 2 ^ nbits / 2 ^ (width * k) % 2 ^ width

/-- The instruction the decoder reads from bits numbered as spec/opcode_table.json numbers them,
whose words are the 16-bit words of CFG_REF (R7). -/
def decodeTableWord (nbits w : Nat) : Option Instr :=
  (decodeAt Cfg.ref (fun k => .ok (tableWord Cfg.ref.w nbits w k)) 0).toOption

end Sys2Proof
end

