-- ==== Sys2Proof/Machine/Fetch.lean ====
section
/-!
DEFINITION. Fetching the next instruction (spec/30_encoding.md rule R88, spec/20_memory.md rule R53)
and placing one where it is fetched.
-/

namespace Sys2Proof.Machine

/-- The instruction at the program counter, its opcode and operand words fetched from memory in
increasing address order, or the fault of that reading. -/
def fetchInstr (s : State) : Except Err Instr := decodeAt s.cfg (fetch s) s.pc

/-- The first `n` words of an instruction given as one number (`tableWord`). -/
def tableWords (width nbits w : Nat) (n : Nat) : List Nat :=
  (List.range n).map (tableWord width nbits w)

/-- How many words the instruction given as one number has: those its bits fill, or more where its
operands, read as zeros above `nbits`, make it longer. -/
def tableCount (c : Cfg) (nbits w : Nat) : Nat :=
  match (decodeAt c (fun k => .ok (tableWord c.w nbits w k)) 0).toOption with
  | some i => max ((nbits + c.w - 1) / c.w) (instrLength i)
  | none => (nbits + c.w - 1) / c.w

/-- The state with an instruction's words in memory at the program counter and the core started:
what a host's LoadCode and Start do for the first instruction (R253, R256; log entry 7). -/
def placeInstr (s : State) (nbits w : Nat) : State :=
  setStatus .running
    (memWriteList s.pc (tableWords s.cfg.w nbits w (tableCount s.cfg nbits w)) s)

end Sys2Proof.Machine
end

