-- ==== Sys2Proof/Machine/Step.lean ====
section
/-!
DEFINITION. One step of the machine (spec/40_loop_and_halt.md rule R110). Three outcomes: a next
state (an instruction's effect, or a fault taken), a named fault where no step is defined (rules
R119, R250), and a refusal, which no instruction of this model answers.
-/

namespace Sys2Proof.Machine

/-- `Step` (R110): requires `status = Running`; fetches and executes one instruction. A fault the
fetch or the decoding raises is taken like any other (R224). -/
def step (s : State) : Host.Outcome State Fault Refusal :=
  match s.status with
  | .running =>
    match fetchInstr s with
    | .ok i => exec i s
    | .error e => .next (takeFault e s)
  | .idle => .fault .notStarted
  | .loaded => .fault .notStarted
  | .halted => .fault .alreadyHalted
  | .faulted => .fault .alreadyFaulted

/-- `s` with the instruction whose bits are `w` placed where `step` fetches its next instruction,
and the core started, so that the next step runs it. -/
def State.withFetchWord (s : State) (nbits w : Nat) : State := placeInstr s nbits w

end Sys2Proof.Machine
end

