-- ==== Sys2Proof/Machine/Boundary.lean ====
section
/-!
DEFINITION. The operations of the core's boundary (spec/70_reset_and_hazards.md rules R250 to R258):
what the host may do to the machine, each as a function of the state. A host that breaks the order
or the operands of rule R252 meets no transition (U16): the named outcome `hostProtocol`.
-/

namespace Sys2Proof.Machine

/-- What the host asks of the core (R252); read accessors stand apart, since they change nothing. -/
inductive HostOp where
  | reset
  | loadCode (words : List Nat)
  | preset (i : Nat) (v : Nat)
  | start
  | step
deriving DecidableEq, Repr

/-- `Reset` (R250), possible at any time: the reset state in the same configuration, with memory
unspecified anew. -/
def hostReset (s : State) : State := State.resetOf s.cfg (s.launch + 1)

/-- The image LoadCode writes (R253): the words, then one halt opcode. -/
def loadImage (words : List Nat) (s : State) : State :=
  memWriteList s.cfg.codeStart (words ++ [s.cfg.opc.halt]) s

/-- `LoadCode(words)` (R253, R254), once, after Reset and before Start: a sequence that leaves no
room for the appended halt writes nothing and is recorded as CodeTooLarge. -/
def hostLoadCode (words : List Nat) (s : State) : Host.Outcome State Fault Refusal :=
  if s.status = .idle ∧ ∀ v ∈ words, IsWord s.cfg.w v then
    if s.cfg.codeCap < words.length + 1 then .next (takeFault (.codeTooLarge words.length) s)
    else .next (setStatus .loaded (loadImage words s))
  else .fault .hostProtocol

/-- `Preset(i, v)` (R255), between LoadCode and Start: general registers only. -/
def hostPreset (i : Nat) (v : Nat) (s : State) : Host.Outcome State Fault Refusal :=
  if h : i < 8 then
    if s.status = .loaded ∧ IsWord s.cfg.w v then .next (setReg ⟨i, h⟩ v s)
    else .fault .hostProtocol
  else .fault .hostProtocol

/-- `Start` (R256), once, after a successful LoadCode. -/
def hostStart (s : State) : Host.Outcome State Fault Refusal :=
  if s.status = .loaded then .next (setStatus .running s) else .fault .hostProtocol

/-- One operation of the host (R252); a step request is one `step` (R256). -/
def hostStep (op : HostOp) (s : State) : Host.Outcome State Fault Refusal :=
  match op with
  | .reset => .next (hostReset s)
  | .loadCode words => hostLoadCode words s
  | .preset i v => hostPreset i v s
  | .start => hostStart s
  | .step => step s

/-- The numeral of `flag` (R27, decision D12). -/
def flagNumeral : Flag → Nat
  | .none => 0
  | .zero => 1
  | .neg => 2

/-- The numeral of `cond` (R26, decision D13). -/
def condNumeral (b : Bool) : Nat := if b then 1 else 0

/-- What `ReadRegs()` returns (R258): R0 to R7, PC, COND and FLAG as words. -/
structure RegView where
  x : Regs
  pc : Nat
  cond : Nat
  flag : Nat
deriving DecidableEq, Repr

/-- `ReadRegs()` (R258). -/
def readRegs (s : State) : RegView := ⟨s.regs, s.pc, condNumeral s.cond, flagNumeral s.flag⟩

/-- `read(address)` (R258): the word, or OutOfBounds returned to the host. -/
def readWord (a : Nat) (s : State) : Except Err Nat := fetch s a

/-- `ReadMem(k)` (R258): the first `k` words; past MEMORY_MAX it fails as `read` does (log
entry 24). -/
def readMem (k : Nat) (s : State) : Except Err (List Nat) := readWords (fetch s) k 0

/-- The run status (R258). -/
def readStatus (s : State) : Status := s.status

/-- The code of the recorded fault, 0 for none (R220, R258). -/
def readErr (s : State) : Nat := errCode s.err

/-- The output so far (R258, R259). -/
def readOut (s : State) : List Byte := s.out

end Sys2Proof.Machine
end

