-- ==== Sys2Proof/WellFormed.lean ====
section
/-!
DEFINITION. Which instructions a stream of words can hold (spec/30_encoding.md rules R80, R86, R87):
every operand is a word, a name has at most NAME_MAX characters and none of them is zero, and a PUTS
count fits its word.
-/

namespace Sys2Proof

/-- A label name as R86 has it: at most `NAME_MAX` characters, each a non-zero word. -/
abbrev NameOk (c : Cfg) (name : List Nat) : Prop :=
  name.length ≤ c.nameMax ∧ ∀ ch ∈ name, ch ≠ 0 ∧ IsWord c.w ch

/-- The character cells of a PUTS as R87 has them: as many as a word can count, each a word. -/
abbrev CharsOk (c : Cfg) (chars : List Nat) : Prop :=
  IsWord c.w chars.length ∧ ∀ ch ∈ chars, IsWord c.w ch

/-- Can a stream of words of configuration `c` hold this instruction? -/
def Instr.wellFormed (c : Cfg) : Instr → Bool
  | .halt => true
  | .ld rd off => decide (IsWord c.w rd ∧ IsWord c.w off)
  | .ldi rd imm => decide (IsWord c.w rd ∧ IsWord c.w imm)
  | .st rs => decide (IsWord c.w rs)
  | .add ra rb rd => decide (IsWord c.w ra ∧ IsWord c.w rb ∧ IsWord c.w rd)
  | .addi ra imm rd => decide (IsWord c.w ra ∧ IsWord c.w imm ∧ IsWord c.w rd)
  | .sub ra rb rd => decide (IsWord c.w ra ∧ IsWord c.w rb ∧ IsWord c.w rd)
  | .subi ra imm rd => decide (IsWord c.w ra ∧ IsWord c.w imm ∧ IsWord c.w rd)
  | .mul ra rb rd => decide (IsWord c.w ra ∧ IsWord c.w rb ∧ IsWord c.w rd)
  | .muli ra imm rd => decide (IsWord c.w ra ∧ IsWord c.w imm ∧ IsWord c.w rd)
  | .div ra rb rd => decide (IsWord c.w ra ∧ IsWord c.w rb ∧ IsWord c.w rd)
  | .divi ra imm rd => decide (IsWord c.w ra ∧ IsWord c.w imm ∧ IsWord c.w rd)
  | .ceq ra rb => decide (IsWord c.w ra ∧ IsWord c.w rb)
  | .cgr ra rb => decide (IsWord c.w ra ∧ IsWord c.w rb)
  | .clo ra rb => decide (IsWord c.w ra ∧ IsWord c.w rb)
  | .cge ra rb => decide (IsWord c.w ra ∧ IsWord c.w rb)
  | .cle ra rb => decide (IsWord c.w ra ∧ IsWord c.w rb)
  | .cne ra rb => decide (IsWord c.w ra ∧ IsWord c.w rb)
  | .jmp name => decide (NameOk c name)
  | .jt name => decide (NameOk c name)
  | .jf name => decide (NameOk c name)
  | .jz name => decide (NameOk c name)
  | .jnz name => decide (NameOk c name)
  | .jn name => decide (NameOk c name)
  | .jnn name => decide (NameOk c name)
  | .putn rs => decide (IsWord c.w rs)
  | .puts chars => decide (CharsOk c chars)
  | .flush => true
  | .lbl name => decide (NameOk c name)

/-- The register operand words of an instruction, in stream order (R81, R83): the operands that go
through `Reg` (spec/40_loop_and_halt.md rule R114). -/
def Instr.regOperands : Instr → List Nat
  | .halt => []
  | .ld rd _ => [rd]
  | .ldi rd _ => [rd]
  | .st rs => [rs]
  | .add ra rb rd => [ra, rb, rd]
  | .addi ra _ rd => [ra, rd]
  | .sub ra rb rd => [ra, rb, rd]
  | .subi ra _ rd => [ra, rd]
  | .mul ra rb rd => [ra, rb, rd]
  | .muli ra _ rd => [ra, rd]
  | .div ra rb rd => [ra, rb, rd]
  | .divi ra _ rd => [ra, rd]
  | .ceq ra rb => [ra, rb]
  | .cgr ra rb => [ra, rb]
  | .clo ra rb => [ra, rb]
  | .cge ra rb => [ra, rb]
  | .cle ra rb => [ra, rb]
  | .cne ra rb => [ra, rb]
  | .jmp _ => []
  | .jt _ => []
  | .jf _ => []
  | .jz _ => []
  | .jnz _ => []
  | .jn _ => []
  | .jnn _ => []
  | .putn rs => [rs]
  | .puts _ => []
  | .flush => []
  | .lbl _ => []

end Sys2Proof
end

