-- ==== Sys2Proof/Safety.lean ====
section
/-!
DEFINITION. The terms statements use: the invariant of the machine, the frames of instructions, and
the fault an instruction raises as spec/60_exceptions.md rule R222 orders the checks.
-/

namespace Sys2Proof.Machine

/-- Every general register holds a word (R20). -/
abbrev RegsOk (s : State) : Prop := ∀ k : Fin 8, IsWord s.cfg.w (s.regs.get k)

/-- The memory is in its canonical form, lists only cells of the array, and each holds a word
(R32). -/
abbrev MemOk (s : State) : Prop :=
  Memory.Wf s.mem ∧ ∀ cell ∈ s.mem, cell.1 < s.cfg.memoryMax ∧ IsWord s.cfg.w cell.2

/-- An entry of the label table as LBL makes it (R35, R203): its address lies after the code start
and inside memory, its name is a name. -/
abbrev LabelOk (c : Cfg) (l : Label) : Prop :=
  c.codeStart < l.address ∧ l.address < c.memoryMax ∧ NameOk c l.name

/-- The invariant of the machine: a legal configuration (R5), words where words stand (R20, R32),
the pc in the code region (R25), the cursor in the user-data region (R34), a label table within its
capacity whose entries are LBL's (R35), and a recorded fault exactly in Faulted (R30). -/
abbrev State.Inv (s : State) : Prop :=
  s.cfg.Wf ∧ RegsOk s ∧ (s.cfg.codeStart ≤ s.pc ∧ s.pc < s.cfg.memoryMax) ∧
  MemOk s ∧ s.wcur < s.cfg.dataEnd ∧
  (s.labels.length ≤ s.cfg.labelMax ∧ ∀ l ∈ s.labels, LabelOk s.cfg l) ∧
  (s.status = .faulted ↔ s.err ≠ none)

/-- `t` is `s` with a fault of some kind taken (R224): only `status` and `err` differ. -/
abbrev FaultedFrom (s t : State) : Prop :=
  ∃ e : Err, t = { s with status := .faulted, err := some e }

/-- The run goes on from `s` to `t`, or `t` is `s` with a fault taken: what an instruction other than
HALT may do to the run status. -/
abbrev RunsOnOrFaults (s t : State) : Prop :=
  (t.status = s.status ∧ t.err = s.err) ∨ FaultedFrom s t

/-- Every cell of memory reads in `t` as it did in `s`. -/
abbrev SameMemory (s t : State) : Prop := ∀ a : Nat, memRead t a = memRead s a

/-- Every general register but the one the word `rd` names holds in `t` what it held in `s`. -/
abbrev SameRegsBut (rd : Nat) (s t : State) : Prop :=
  ∀ k : Fin 8, k.val ≠ rd → t.regs.get k = s.regs.get k

/-- What no instruction ever writes: the configuration and the choice of the launch memory. -/
abbrev SameMachine (s t : State) : Prop := t.cfg = s.cfg ∧ t.launch = s.launch

/-- The families of spec/30_encoding.md rule R90. -/
inductive Family where
  | halt
  | load
  | store
  | arith
  | compare
  | jump
  | output
  | label
deriving DecidableEq, Repr

/-- The family of an instruction (R90). -/
def familyOf : Instr → Family
  | .halt => .halt
  | .ld _ _ | .ldi _ _ => .load
  | .st _ => .store
  | .add _ _ _ | .addi _ _ _ | .sub _ _ _ | .subi _ _ _
  | .mul _ _ _ | .muli _ _ _ | .div _ _ _ | .divi _ _ _ => .arith
  | .ceq _ _ | .cgr _ _ | .clo _ _ | .cge _ _ | .cle _ _ | .cne _ _ => .compare
  | .jmp _ | .jt _ | .jf _ | .jz _ | .jnz _ | .jn _ | .jnn _ => .jump
  | .putn _ | .puts _ | .flush => .output
  | .lbl _ => .label

/-- How many operand words a mnemonic's format has (R81), where that is a fixed number. -/
def fixedOperands : Op → Option Nat
  | .halt | .flush => some 0
  | .st | .putn => some 1
  | .ld | .ldi | .ceq | .cgr | .clo | .cge | .cle | .cne => some 2
  | .add | .addi | .sub | .subi | .mul | .muli | .div | .divi => some 3
  | .jmp | .jt | .jf | .jz | .jnz | .jn | .jnn | .lbl | .puts => none

/-- The mnemonics whose operand is an inline name (format FN of R81). -/
def isNamed : Op → Bool
  | .jmp | .jt | .jf | .jz | .jnz | .jn | .jnn | .lbl => true
  | .halt | .ld | .ldi | .st | .add | .addi | .sub | .subi | .mul | .muli | .div | .divi
  | .ceq | .cgr | .clo | .cge | .cle | .cne | .putn | .puts | .flush => false

/-- The name of a jump and whether it is taken in `s` (the table of R171); none for an instruction
that is no jump. -/
def jumpOf (s : State) : Instr → Option (List Nat × Bool)
  | .jmp name => some (name, true)
  | .jt name => some (name, decide (s.cond = true))
  | .jf name => some (name, decide (s.cond = false))
  | .jz name => some (name, decide (s.flag = .zero))
  | .jnz name => some (name, decide (s.flag ≠ .zero))
  | .jn name => some (name, decide (s.flag = .neg))
  | .jnn name => some (name, decide (s.flag ≠ .neg))
  | .halt | .ld _ _ | .ldi _ _ | .st _ | .add _ _ _ | .addi _ _ _ | .sub _ _ _ | .subi _ _ _
  | .mul _ _ _ | .muli _ _ _ | .div _ _ _ | .divi _ _ _ | .ceq _ _ | .cgr _ _ | .clo _ _
  | .cge _ _ | .cle _ _ | .cne _ _ | .putn _ | .puts _ | .flush | .lbl _ => none

/-- The signed address an LD offset word forms (R85, R131, READ_BASE being 0). -/
def signedOffset (w : Nat) (off : Nat) : Int :=
  if off < 2 ^ (w - 1) then (off : Int) else (off : Int) - (2 : Int) ^ w

/-- The word a register operand selects; 0 where the operand names no register, which the register
check refuses before the value matters. -/
def operandValue (s : State) (v : Nat) : Nat :=
  if h : v < 8 then s.regs.get ⟨v, h⟩ else 0

/-- An instruction's own fault condition, check (4) of R222. -/
def ownFault (s : State) : Instr → Option Err
  | .ld _ off =>
    if 0 ≤ signedOffset s.cfg.w off ∧ signedOffset s.cfg.w off < s.cfg.dataEnd then none
    else some (.offsetOutOfBounds (signedOffset s.cfg.w off))
  | .div _ rb _ => if operandValue s rb = 0 then some .divisionByZero else none
  | .divi _ imm _ => if imm = 0 then some .divisionByZero else none
  | .lbl _ => if s.labels.length < s.cfg.labelMax then none else some .tooManyLabels
  | .jmp name | .jt name | .jf name | .jz name | .jnz name | .jn name | .jnn name =>
    if name ∈ s.labels.map Label.name then none else some (.undefinedLabel name)
  | .halt | .ldi _ _ | .st _ | .add _ _ _ | .addi _ _ _ | .sub _ _ _ | .subi _ _ _
  | .mul _ _ _ | .muli _ _ _ | .ceq _ _ | .cgr _ _ | .clo _ _ | .cge _ _ | .cle _ _ | .cne _ _
  | .putn _ | .puts _ | .flush => none

/-- The fault of the advance check, check (5) of R222: every instruction but HALT and a taken jump
makes it. -/
def advanceFault (s : State) (i : Instr) : Option Err :=
  if s.pc + instrLength i < s.cfg.memoryMax then none
  else some (.outOfBounds (s.pc + instrLength i))

/-- The fault an instruction raises once its operands are fetched, in the order of R222: (3) the
first register operand above 7 in stream order, (4) its own condition, which a jump makes only when
taken, (5) the advance check, which HALT and a taken jump do not make. -/
def raisedFault (s : State) (i : Instr) : Option Err :=
  match i.regOperands.find? (fun v => decide (7 < v)) with
  | some v => some (.registerOutOfBounds v)
  | none =>
    match jumpOf s i with
    | some (_, true) => ownFault s i
    | some (_, false) => advanceFault s i
    | none => if i = .halt then none else (ownFault s i).or (advanceFault s i)

end Sys2Proof.Machine
end

