-- ==== Sys2Proof/Certificates/Slice0/Obligations.lean ====
section
/-!
DEFINITION. What the provers are asked to prove of the model, from the numbered rules of spec/.
Each docstring names the rules it formalises. Where a clause rests on one of the spec's own
decisions (D<n> of spec/92_eei_decisions.md) or on a choice of the model, the docstring says so.
-/

open Sys2Proof Sys2Proof.Machine

/-! ## Encoding and decoding -/

/-- Decoding the words of a well-formed instruction, whatever follows them, gives the instruction
back, for all 29 instructions and every legal configuration (R81, R82, R88, R90). The layout is the
spec's decision D7, the opcode map its decision D6 (log entries 10 and 11). -/
def Obligations.DecodeOfEncodeIsTheInstruction : Prop :=
  ∀ (c : Cfg) (i : Instr) (rest : List Nat), c.Wf → i.wellFormed c = true →
    decodeWords c (encode c i ++ rest) = .ok i

/-- The other direction: whatever the decoder reads from words was written there exactly as the
encoder writes it, so every word of an instruction counts and none is ignored (R83, R88, R90,
decisions D6 and D7). -/
def Obligations.DecodedWordsAreTheEncoding : Prop :=
  ∀ (c : Cfg) (rd : Nat → Except Err Nat) (a : Nat) (i : Instr), decodeAt c rd a = .ok i →
    ∀ (k : Nat) (h : k < (encode c i).length), rd (a + k) = .ok ((encode c i)[k])

/-- An instruction read from memory words is well-formed: its operands are words, a name has no zero
and at most NAME_MAX characters, a PUTS run has no more cells than a word can count (R80, R86, R87;
decisions D5, D7, D17). -/
def Obligations.DecodedInstructionIsWellFormed : Prop :=
  ∀ (c : Cfg) (rd : Nat → Except Err Nat) (a : Nat) (i : Instr),
    (∀ b v, rd b = .ok v → IsWord c.w v) → decodeAt c rd a = .ok i → i.wellFormed c = true

/-- Words written out from the spec's examples decode to the instructions they stand for, one a
family and format (R81, R90; the opcode numbers are the default map of decision D6, log entry
10). -/
def Obligations.WordsOfTheSpecDecode : Prop :=
  decodeWords Cfg.ref [0] = .ok .halt ∧
  decodeWords Cfg.ref [1, 3, 5] = .ok (.ld 3 5) ∧
  decodeWords Cfg.ref [3, 2] = .ok (.st 2) ∧
  decodeWords Cfg.ref [6, 0, 1, 2] = .ok (.sub 0 1 2) ∧
  decodeWords Cfg.ref [5, 0, 1, 0] = .ok (.addi 0 1 0) ∧
  decodeWords Cfg.ref [12, 0, 1] = .ok (.ceq 0 1) ∧
  decodeWords Cfg.ref [20, 108, 111, 111, 112, 0] = .ok (.jf [108, 111, 111, 112]) ∧
  decodeWords Cfg.ref [26, 2, 79, 75] = .ok (.puts [79, 75]) ∧
  decodeWords Cfg.ref [28, 0] = .ok (.lbl [])

/-! ## The step -/

/-- A step of a running core whose words at the pc decode to `i` is `exec i`: nothing is added
around it (R110, R113). -/
def Obligations.StepRunsTheDecodedInstruction : Prop :=
  ∀ (s : State) (i : Instr), s.status = .running → decodeAt s.cfg (fetch s) s.pc = .ok i →
    step s = exec i s

/-- Memory holding the words of a well-formed instruction at the pc, inside memory, a step is `exec`
of that instruction (R23, R54, R88, R110, R113; layout D7). -/
def Obligations.StepRunsTheEncodedInstruction : Prop :=
  ∀ (s : State) (i : Instr), s.cfg.Wf → s.status = .running → i.wellFormed s.cfg = true →
    s.pc + (encode s.cfg i).length ≤ s.cfg.memoryMax →
    (∀ (k : Nat) (h : k < (encode s.cfg i).length), memRead s (s.pc + k) = (encode s.cfg i)[k]) →
    step s = exec i s

/-- The Execution Loop (R110): a running core always steps; on the halt opcode it becomes Halted and
nothing else changes; on any other word it remains Running, or the step raised a fault, which
changes `status` and `err` alone (R111, R224; the fault status is decision D21, that the pc stays at
a halt decision D33, log entries 8 and 27). -/
def Obligations.StepOfARunningCore : Prop :=
  ∀ s : State, s.status = .running → s.pc < s.cfg.memoryMax →
    (memRead s s.pc = s.cfg.opc.halt → step s = .next { s with status := .halted }) ∧
    (memRead s s.pc ≠ s.cfg.opc.halt →
      ∃ t, step s = .next t ∧ ((t.status = .running ∧ t.err = s.err) ∨ FaultedFrom s t))

/-- No step is defined in Halted or Faulted (R119); of the host's operations only reset has a
transition there, and it leaves both (R119, R252). That the model says so by named outcomes, and
gives the other operations no transition at all, is its choice (log entries 9 and 23); that reset
leads to `idle` is log entry 6. -/
def Obligations.NoStepAfterTheEnd : Prop :=
  ∀ s : State,
    (s.status = .halted → step s = .fault .alreadyHalted) ∧
    (s.status = .faulted → step s = .fault .alreadyFaulted) ∧
    (s.status = .halted ∨ s.status = .faulted →
      (∀ op : HostOp, op ≠ .reset → ∃ f, hostStep op s = .fault f) ∧
      ∃ t, hostStep .reset s = .next t ∧ t.status ≠ .halted ∧ t.status ≠ .faulted)

/-- Before Start the core takes no step (R250, R256). That the model tells this moment by the two
status values `idle` and `loaded`, and answers the named fault `notStarted`, is its choice (log
entries 6 and 9). -/
def Obligations.NoStepBeforeStart : Prop :=
  ∀ s : State, s.status = .idle ∨ s.status = .loaded → step s = .fault .notStarted

/-- A word at the pc that is none of the 29 opcodes raises UnrecognizedOperation: no operand is
read, `status` becomes Faulted and `err` records it, nothing else changes (R112). -/
def Obligations.IllegalOpcodeFaults : Prop :=
  ∀ s : State, s.status = .running → s.pc < s.cfg.memoryMax →
    (∀ o : Op, s.cfg.opc.code o ≠ memRead s s.pc) →
    step s = .next { s with
      status := .faulted, err := some (.unrecognizedOperation (memRead s s.pc)) }

/-- LDI at the pc, whole (R132): its operand words are fetched in increasing address order, the
register is checked, then the advance, and only then the register and the pc are written. -/
def Obligations.LdiAtThePc : Prop :=
  ∀ s : State, s.cfg.Wf → s.status = .running → s.pc < s.cfg.memoryMax →
    memRead s s.pc = s.cfg.opc.ldi →
    step s = .next (
      if s.cfg.memoryMax ≤ s.pc + 1 then
        { s with status := .faulted, err := some (.outOfBounds (s.pc + 1)) }
      else if s.cfg.memoryMax ≤ s.pc + 2 then
        { s with status := .faulted, err := some (.outOfBounds (s.pc + 2)) }
      else if h : memRead s (s.pc + 1) < 8 then
        if s.cfg.memoryMax ≤ s.pc + 3 then
          { s with status := .faulted, err := some (.outOfBounds (s.pc + 3)) }
        else
          { s with
            regs := s.regs.set (memRead s (s.pc + 2)) ⟨memRead s (s.pc + 1), h⟩
            pc := s.pc + 3 }
      else
        { s with
          status := .faulted, err := some (.registerOutOfBounds (memRead s (s.pc + 1))) })

/-- ST at the pc, whole (R133): its operand word is fetched, the register is checked, then the
advance, and then the register's word goes to the cell at the cursor and to no other, and the cursor
moves on unless it stands on the last user-data cell. -/
def Obligations.StAtThePc : Prop :=
  ∀ s : State, s.cfg.Wf → s.status = .running → s.pc < s.cfg.memoryMax →
    s.wcur < s.cfg.dataEnd → memRead s s.pc = s.cfg.opc.st →
    (s.cfg.memoryMax ≤ s.pc + 1 →
      step s = .next { s with status := .faulted, err := some (.outOfBounds (s.pc + 1)) }) ∧
    (s.pc + 1 < s.cfg.memoryMax → 7 < memRead s (s.pc + 1) →
      step s = .next { s with
        status := .faulted, err := some (.registerOutOfBounds (memRead s (s.pc + 1))) }) ∧
    (s.pc + 1 < s.cfg.memoryMax → ∀ h : memRead s (s.pc + 1) < 8,
      (s.cfg.memoryMax ≤ s.pc + 2 →
        step s = .next { s with status := .faulted, err := some (.outOfBounds (s.pc + 2)) }) ∧
      (s.pc + 2 < s.cfg.memoryMax → ∃ t, step s = .next t ∧
        (∀ a, memRead t a =
          if a = s.wcur then s.regs.get ⟨memRead s (s.pc + 1), h⟩ else memRead s a) ∧
        t = { s with
          mem := t.mem
          wcur := if s.wcur = s.cfg.dataEnd - 1 then s.wcur else s.wcur + 1
          pc := s.pc + 2 }))

/-! ## Faults -/

/-- An instruction with a fixed number of operand words that do not all lie in memory raises
OutOfBounds at the first address beyond it, and has no effect (R53, R222; the order and the kind are
decisions D22 and D23, log entries 19 and 20). -/
def Obligations.MissingOperandWordFaults : Prop :=
  ∀ (s : State) (o : Op) (n : Nat), s.cfg.Wf → s.status = .running → s.pc < s.cfg.memoryMax →
    memRead s s.pc = s.cfg.opc.code o → fixedOperands o = some n →
    s.cfg.memoryMax ≤ s.pc + n →
    step s = .next { s with
      status := .faulted, err := some (.outOfBounds s.cfg.memoryMax) }

/-- Reading a label name (R115, decision D5): NAME_MAX + 1 non-zero words in memory after the opcode
raise NameTooLong with the address of the first; non-zero words up to the end of memory, no more
than NAME_MAX of them, raise OutOfBounds. Taken or not, and before a full table is noticed. -/
def Obligations.NameReadingFaults : Prop :=
  ∀ (s : State) (o : Op), s.cfg.Wf → s.status = .running → s.pc < s.cfg.memoryMax →
    memRead s s.pc = s.cfg.opc.code o → isNamed o = true →
    (s.pc + 1 + s.cfg.nameMax < s.cfg.memoryMax →
      (∀ k, k ≤ s.cfg.nameMax → memRead s (s.pc + 1 + k) ≠ 0) →
      step s = .next { s with status := .faulted, err := some (.nameTooLong (s.pc + 1)) }) ∧
    (s.cfg.memoryMax ≤ s.pc + 1 + s.cfg.nameMax →
      (∀ a, s.pc < a → a < s.cfg.memoryMax → memRead s a ≠ 0) →
      step s = .next { s with status := .faulted, err := some (.outOfBounds s.cfg.memoryMax) })

/-- A PUTS whose count word, or a character of whose run, does not lie in memory raises OutOfBounds
at the first address beyond it and emits nothing, not even the characters that lie in memory (R10,
R191; decisions D17 and D23, log entries 16 and 19). -/
def Obligations.PutsRunOutsideMemoryFaults : Prop :=
  ∀ s : State, s.cfg.Wf → s.status = .running → s.pc < s.cfg.memoryMax →
    memRead s s.pc = s.cfg.opc.puts →
    s.cfg.memoryMax ≤ s.pc + 1 ∨ s.cfg.memoryMax < s.pc + 2 + memRead s (s.pc + 1) →
    step s = .next { s with status := .faulted, err := some (.outOfBounds s.cfg.memoryMax) }

/-- A step that ends in Faulted changed nothing but `status` and `err`: no register, flag, memory
cell, cursor, label entry or output byte, and the pc stays (R224; `status` and `err` are decision
D21, log entry 8). -/
def Obligations.FaultHasNoOtherEffect : Prop :=
  ∀ s t : State, step s = .next t → t.status = .faulted →
    ∃ e : Err, t = { s with status := .faulted, err := some e }

/-- Every instruction raises exactly the first fault its checks meet in the order of R222: register
operands in stream order, its own condition, the advance check; with none of them no fault is
recorded, HALT halts and every other instruction leaves the status (R114, R116, R117, R222; the
order is decision D22, log entry 20). -/
def Obligations.FaultsFollowTheOrderOfChecks : Prop :=
  ∀ (s : State) (i : Instr),
    (∀ e, raisedFault s i = some e →
      exec i s = .next { s with status := .faulted, err := some e }) ∧
    (raisedFault s i = none →
      ∃ t, exec i s = .next t ∧ t.err = s.err ∧
        t.status = if i = .halt then .halted else s.status)

/-! ## What each instruction does -/

/-- HALT: `status` becomes Halted and nothing else changes, the pc included (R111; that the pc stays
is decision D33, log entry 27). -/
def Obligations.HaltStopsTheCore : Prop :=
  ∀ s : State, exec .halt s = .next { s with status := .halted }

/-- LD of any register from any user-data cell gives exactly that cell, written or not (R131; that
READ_BASE is 0 is decision D15, log entry 12). -/
def Obligations.LdLoadsTheUserDataCell : Prop :=
  ∀ (s : State) (d : Fin 8) (off : Nat), s.cfg.Wf → off < s.cfg.dataEnd →
    s.pc + 3 < s.cfg.memoryMax →
    exec (.ld d off) s = .next { s with regs := s.regs.set (memRead s off) d, pc := s.pc + 3 }

/-- LD with any other offset word raises OffsetOutOfBounds with the signed address: a word from
2^(W-1) up is a negative offset (R85, R131; two's complement and the lower bound are decision D15,
log entry 12). -/
def Obligations.LdOutsideUserDataFaults : Prop :=
  ∀ (s : State) (d : Fin 8) (off : Nat), s.cfg.Wf → IsWord s.cfg.w off → s.cfg.dataEnd ≤ off →
    exec (.ld d off) s = .next { s with
      status := .faulted
      err := some (.offsetOutOfBounds
        (if off < 2 ^ (s.cfg.w - 1) then (off : Int) else (off : Int) - (2 : Int) ^ s.cfg.w)) }

/-- LDI puts the whole immediate word in any register and writes no flag (R84, R132; that the
immediate is unsigned is decision D10, log entry 13). -/
def Obligations.LdiLoadsTheImmediate : Prop :=
  ∀ (s : State) (d : Fin 8) (imm : Nat), s.pc + 3 < s.cfg.memoryMax →
    exec (.ldi d imm) s = .next { s with regs := s.regs.set imm d, pc := s.pc + 3 }

/-- ST writes the register's word to the cell at the cursor and to no other, and the cursor advances
unless it stands on the last user-data cell (R57, R133; where the cursor saturates is decision D16,
log entry 22). -/
def Obligations.StAppendsAtTheCursor : Prop :=
  ∀ (s : State) (r : Fin 8), s.pc + 2 < s.cfg.memoryMax →
    ∃ t, exec (.st r) s = .next t ∧
      memRead t s.wcur = s.regs.get r ∧
      (∀ a, a ≠ s.wcur → memRead t a = memRead s a) ∧
      t = { s with
        mem := t.mem
        wcur := if s.wcur < s.cfg.dataEnd - 1 then s.wcur + 1 else s.wcur
        pc := s.pc + 2 }

/-- ADD and ADDI: the exact sum modulo 2^W, FL_ZERO only when both operands are 0, else FL_NONE even
when the stored word is 0; the immediate is unsigned (R140, R141, R143, R144, R151; decision D10,
log entry 13). -/
def Obligations.AddStoresTheSum : Prop :=
  ∀ (s : State) (a b d : Fin 8) (imm : Nat), s.pc + 4 < s.cfg.memoryMax →
    exec (.add a b d) s = .next { s with
      regs := s.regs.set ((s.regs.get a + s.regs.get b) % 2 ^ s.cfg.w) d
      flag := if s.regs.get a = 0 ∧ s.regs.get b = 0 then .zero else .none
      pc := s.pc + 4 } ∧
    exec (.addi a imm d) s = .next { s with
      regs := s.regs.set ((s.regs.get a + imm) % 2 ^ s.cfg.w) d
      flag := if s.regs.get a = 0 ∧ imm = 0 then .zero else .none
      pc := s.pc + 4 }

/-- SUB and SUBI: the first operand minus the second; a negative difference stores 2^W plus it and
is FL_NEG, equal operands are FL_ZERO, else FL_NONE (R140, R141, R145, R146, R151; decisions D9 and
D10, log entries 13 and 14). -/
def Obligations.SubStoresTheDifference : Prop :=
  ∀ (s : State) (a b d : Fin 8) (imm : Nat), RegsOk s → IsWord s.cfg.w imm →
    s.pc + 4 < s.cfg.memoryMax →
    exec (.sub a b d) s = .next { s with
      regs := s.regs.set
        (if s.regs.get b ≤ s.regs.get a then s.regs.get a - s.regs.get b
          else 2 ^ s.cfg.w + s.regs.get a - s.regs.get b) d
      flag := if s.regs.get a = s.regs.get b then .zero
        else if s.regs.get a < s.regs.get b then .neg else .none
      pc := s.pc + 4 } ∧
    exec (.subi a imm d) s = .next { s with
      regs := s.regs.set
        (if imm ≤ s.regs.get a then s.regs.get a - imm
          else 2 ^ s.cfg.w + s.regs.get a - imm) d
      flag := if s.regs.get a = imm then .zero
        else if s.regs.get a < imm then .neg else .none
      pc := s.pc + 4 }

/-- MUL and MULI: the exact product modulo 2^W, FL_ZERO exactly when an operand is 0, else FL_NONE
even when the stored word is 0 (R140, R141, R147, R148, R151; decision D10, log entry 13). -/
def Obligations.MulStoresTheProduct : Prop :=
  ∀ (s : State) (a b d : Fin 8) (imm : Nat), s.pc + 4 < s.cfg.memoryMax →
    exec (.mul a b d) s = .next { s with
      regs := s.regs.set (s.regs.get a * s.regs.get b % 2 ^ s.cfg.w) d
      flag := if s.regs.get a = 0 ∨ s.regs.get b = 0 then .zero else .none
      pc := s.pc + 4 } ∧
    exec (.muli a imm d) s = .next { s with
      regs := s.regs.set (s.regs.get a * imm % 2 ^ s.cfg.w) d
      flag := if s.regs.get a = 0 ∨ imm = 0 then .zero else .none
      pc := s.pc + 4 }

/-- DIV and DIVI by a divisor that is not 0: the unsigned quotient rounded down, which never wraps;
FL_ZERO exactly when the dividend is below the divisor, else FL_NONE (R140, R149, R150, R151;
decisions D9 and D11, log entries 13 and 14). -/
def Obligations.DivStoresTheQuotient : Prop :=
  ∀ (s : State) (a b d : Fin 8) (imm : Nat), RegsOk s → s.pc + 4 < s.cfg.memoryMax →
    (s.regs.get b ≠ 0 →
      exec (.div a b d) s = .next { s with
        regs := s.regs.set (s.regs.get a / s.regs.get b) d
        flag := if s.regs.get a < s.regs.get b then .zero else .none
        pc := s.pc + 4 }) ∧
    (imm ≠ 0 →
      exec (.divi a imm d) s = .next { s with
        regs := s.regs.set (s.regs.get a / imm) d
        flag := if s.regs.get a < imm then .zero else .none
        pc := s.pc + 4 })

/-- A zero divisor, register or immediate, raises DivisionByZero and leaves the destination register
and the flag as they were (R142, R149, R150; `status` and `err` are decision D21, log entry 8). -/
def Obligations.DivisionByZeroFaults : Prop :=
  ∀ (s : State) (a b d : Fin 8),
    (s.regs.get b = 0 →
      exec (.div a b d) s = .next { s with status := .faulted, err := some .divisionByZero }) ∧
    exec (.divi a 0 d) s = .next { s with status := .faulted, err := some .divisionByZero }

/-- The six comparisons of two registers' unsigned words, the first operand on the left, into `cond`
(R160 to R166; all relations but CEQ's are decision D9, log entry 14). -/
def Obligations.ComparisonsSetTheCondition : Prop :=
  ∀ (s : State) (a b : Fin 8), s.pc + 3 < s.cfg.memoryMax →
    exec (.ceq a b) s = .next { s with
      cond := decide (s.regs.get a = s.regs.get b), pc := s.pc + 3 } ∧
    exec (.cgr a b) s = .next { s with
      cond := decide (s.regs.get a > s.regs.get b), pc := s.pc + 3 } ∧
    exec (.clo a b) s = .next { s with
      cond := decide (s.regs.get a < s.regs.get b), pc := s.pc + 3 } ∧
    exec (.cge a b) s = .next { s with
      cond := decide (s.regs.get a ≥ s.regs.get b), pc := s.pc + 3 } ∧
    exec (.cle a b) s = .next { s with
      cond := decide (s.regs.get a ≤ s.regs.get b), pc := s.pc + 3 } ∧
    exec (.cne a b) s = .next { s with
      cond := decide (s.regs.get a ≠ s.regs.get b), pc := s.pc + 3 }

/-- The relations between the six comparisons of the same two registers: CNE is not CEQ, CGE is not
CLO, CLE is not CGR, CGE is CGR or CEQ, CLE is CLO or CEQ, and exactly one of CLO, CEQ, CGR holds
(R167, an inference the spec marks as its own). -/
def Obligations.ComparisonsAreRelated : Prop :=
  ∀ (s : State) (a b : Fin 8), s.pc + 3 < s.cfg.memoryMax →
    ∃ eq gr lo ge le ne : State,
      exec (.ceq a b) s = .next eq ∧ exec (.cgr a b) s = .next gr ∧
      exec (.clo a b) s = .next lo ∧ exec (.cge a b) s = .next ge ∧
      exec (.cle a b) s = .next le ∧ exec (.cne a b) s = .next ne ∧
      ne.cond = !eq.cond ∧ ge.cond = !lo.cond ∧ le.cond = !gr.cond ∧
      ge.cond = (gr.cond || eq.cond) ∧ le.cond = (lo.cond || eq.cond) ∧
      [lo.cond, eq.cond, gr.cond].count true = 1

/-- A taken jump goes to the address of the first entry with its name and writes the pc alone, with
no advance check, wherever the name ends; each of the seven jumps is taken as R171 says (R170 to
R178, R202; the conditions but JF's are decision D14, the first match decision D19, log entries 15
and 18). -/
def Obligations.TakenJumpGoesToTheLabel : Prop :=
  ∀ (s : State) (pre post : List Label) (l : Label), s.labels = pre ++ l :: post →
    (∀ m ∈ pre, m.name ≠ l.name) →
    exec (.jmp l.name) s = .next { s with pc := l.address } ∧
    (s.cond = true → exec (.jt l.name) s = .next { s with pc := l.address }) ∧
    (s.cond = false → exec (.jf l.name) s = .next { s with pc := l.address }) ∧
    (s.flag = .zero → exec (.jz l.name) s = .next { s with pc := l.address }) ∧
    (s.flag ≠ .zero → exec (.jnz l.name) s = .next { s with pc := l.address }) ∧
    (s.flag = .neg → exec (.jn l.name) s = .next { s with pc := l.address }) ∧
    (s.flag ≠ .neg → exec (.jnn l.name) s = .next { s with pc := l.address })

/-- A conditional jump that is not taken skips its whole name and never looks it up, so it completes
whether the name is defined or not (R82, R170, R171, R262; the conditions but JF's are decision D14,
log entry 15). -/
def Obligations.UntakenJumpSkipsItsName : Prop :=
  ∀ (s : State) (name : List Nat), s.pc + (2 + name.length) < s.cfg.memoryMax →
    (s.cond = false → exec (.jt name) s = .next { s with pc := s.pc + (2 + name.length) }) ∧
    (s.cond = true → exec (.jf name) s = .next { s with pc := s.pc + (2 + name.length) }) ∧
    (s.flag ≠ .zero → exec (.jz name) s = .next { s with pc := s.pc + (2 + name.length) }) ∧
    (s.flag = .zero → exec (.jnz name) s = .next { s with pc := s.pc + (2 + name.length) }) ∧
    (s.flag ≠ .neg → exec (.jn name) s = .next { s with pc := s.pc + (2 + name.length) }) ∧
    (s.flag = .neg → exec (.jnn name) s = .next { s with pc := s.pc + (2 + name.length) })

/-- A taken jump to a name no executed LBL has defined raises UndefinedLabel: forward references
fail (R170, R180, R202; the conditions are decision D14, log entry 15). -/
def Obligations.UndefinedLabelFaults : Prop :=
  ∀ (s : State) (i : Instr) (name : List Nat), jumpOf s i = some (name, true) →
    (∀ l ∈ s.labels, l.name ≠ name) →
    exec i s = .next { s with status := .faulted, err := some (.undefinedLabel name) }

/-- A backward jump resumes after the label: once an LBL of a name new to the table has executed, a
JMP to it from any later state, whose table extends the one the LBL left, goes to the address right
after that LBL's terminator (R180, R200, R203; the address and the search order are decisions D19
and D20, log entry 18). -/
def Obligations.BackwardJumpResumesAfterTheLabel : Prop :=
  ∀ (s t u : State) (name : List Nat), exec (.lbl name) s = .next t → t.status ≠ .faulted →
    (∀ l ∈ s.labels, l.name ≠ name) → t.labels <+: u.labels →
    exec (.jmp name) u = .next { u with pc := s.pc + (2 + name.length) }

/-- PUTN emits the shortest base-ten numeral of the register's unsigned word: digits 0 to 9 as bytes
0x30 to 0x39, most significant first, a leading zero only for the value 0, nothing before or after
(R190; unsigned and unpadded is decision D18, the byte values general knowledge G1, log entry 17). -/
def Obligations.PutnEmitsTheDecimalNumeral : Prop :=
  ∀ (s : State) (r : Fin 8), s.pc + 2 < s.cfg.memoryMax →
    ∃ ds : List Nat,
      (∀ d ∈ ds, d < 10) ∧ Nat.ofDigits 10 ds.reverse = s.regs.get r ∧
      ds ≠ [] ∧ (ds.head? = some 0 → ds = [0]) ∧
      exec (.putn r) s = .next { s with
        out := s.out ++ ds.map (fun d => BitVec.ofNat 8 (0x30 + d)), pc := s.pc + 2 }

/-- PUTS emits one byte a cell, its value modulo 256, zero cells among them, and the pc skips the
whole run (R87, R191; the count word and the modulus are decision D17, log entry 16). -/
def Obligations.PutsEmitsItsCells : Prop :=
  ∀ (s : State) (chars : List Nat), s.pc + (2 + chars.length) < s.cfg.memoryMax →
    exec (.puts chars) s = .next { s with
      out := s.out ++ chars.map (fun ch => BitVec.ofNat 8 (ch % 256))
      pc := s.pc + (2 + chars.length) }

/-- FLUSH emits the one byte 0x0A (R192; the byte is decision D18 and general knowledge G2, log
entry 17). -/
def Obligations.FlushEmitsANewline : Prop :=
  ∀ s : State, s.pc + 1 < s.cfg.memoryMax →
    exec .flush s = .next { s with out := s.out ++ [0x0A#8], pc := s.pc + 1 }

/-- LBL appends one entry binding its name to the address after its terminator, whether the name is
new or not, and falls through to that address (R200, R201, R203; decisions D19 and D20, log entry
18). -/
def Obligations.LblAppendsAnEntry : Prop :=
  ∀ (s : State) (name : List Nat), s.labels.length < s.cfg.labelMax →
    s.pc + (2 + name.length) < s.cfg.memoryMax →
    exec (.lbl name) s = .next { s with
      labels := s.labels ++ [⟨s.pc + (2 + name.length), name⟩]
      pc := s.pc + (2 + name.length) }

/-- LBL with a full table raises TooManyLabels and leaves the table as it was, wherever its name ends
(R201, R203, R204; `status` and `err` are decision D21, log entry 8). -/
def Obligations.FullLabelTableFaults : Prop :=
  ∀ (s : State) (name : List Nat), s.cfg.labelMax ≤ s.labels.length →
    exec (.lbl name) s = .next { s with status := .faulted, err := some .tooManyLabels }

/-! ## What each instruction leaves unchanged -/

/-- LD and LDI change the destination register and the pc, or only raise a fault. -/
def Obligations.LoadFrame : Prop :=
  ∀ (rd x : Nat) (s t : State),
    exec (.ld rd x) s = .next t ∨ exec (.ldi rd x) s = .next t →
    SameRegsBut rd s t ∧ t.cond = s.cond ∧ t.flag = s.flag ∧ SameMemory s t ∧
    t.wcur = s.wcur ∧ t.labels = s.labels ∧ t.out = s.out ∧
    RunsOnOrFaults s t ∧ SameMachine s t

/-- ST changes the cell at the cursor, the cursor and the pc, or only raises a fault. -/
def Obligations.StoreFrame : Prop :=
  ∀ (rs : Nat) (s t : State), exec (.st rs) s = .next t →
    t.regs = s.regs ∧ t.cond = s.cond ∧ t.flag = s.flag ∧
    (∀ a, a ≠ s.wcur → memRead t a = memRead s a) ∧
    t.labels = s.labels ∧ t.out = s.out ∧ RunsOnOrFaults s t ∧ SameMachine s t

/-- The eight arithmetic instructions change the destination register, the flag register and the pc,
or only raise a fault (R142). -/
def Obligations.ArithmeticFrame : Prop :=
  ∀ (ra x rd : Nat) (s t : State),
    (exec (.add ra x rd) s = .next t ∨ exec (.addi ra x rd) s = .next t ∨
     exec (.sub ra x rd) s = .next t ∨ exec (.subi ra x rd) s = .next t ∨
     exec (.mul ra x rd) s = .next t ∨ exec (.muli ra x rd) s = .next t ∨
     exec (.div ra x rd) s = .next t ∨ exec (.divi ra x rd) s = .next t) →
    SameRegsBut rd s t ∧ t.cond = s.cond ∧ SameMemory s t ∧
    t.wcur = s.wcur ∧ t.labels = s.labels ∧ t.out = s.out ∧
    RunsOnOrFaults s t ∧ SameMachine s t

/-- The six comparisons change the condition register and the pc, or only raise a fault (R160). -/
def Obligations.CompareFrame : Prop :=
  ∀ (ra rb : Nat) (s t : State),
    (exec (.ceq ra rb) s = .next t ∨ exec (.cgr ra rb) s = .next t ∨
     exec (.clo ra rb) s = .next t ∨ exec (.cge ra rb) s = .next t ∨
     exec (.cle ra rb) s = .next t ∨ exec (.cne ra rb) s = .next t) →
    t.regs = s.regs ∧ t.flag = s.flag ∧ SameMemory s t ∧
    t.wcur = s.wcur ∧ t.labels = s.labels ∧ t.out = s.out ∧
    RunsOnOrFaults s t ∧ SameMachine s t

/-- The seven jumps change the pc alone, taken or not, or only raise a fault (R170). -/
def Obligations.JumpFrame : Prop :=
  ∀ (name : List Nat) (s t : State),
    (exec (.jmp name) s = .next t ∨ exec (.jt name) s = .next t ∨
     exec (.jf name) s = .next t ∨ exec (.jz name) s = .next t ∨
     exec (.jnz name) s = .next t ∨ exec (.jn name) s = .next t ∨
     exec (.jnn name) s = .next t) →
    t.regs = s.regs ∧ t.cond = s.cond ∧ t.flag = s.flag ∧ SameMemory s t ∧
    t.wcur = s.wcur ∧ t.labels = s.labels ∧ t.out = s.out ∧
    RunsOnOrFaults s t ∧ SameMachine s t

/-- PUTN, PUTS and FLUSH change the output, at its end alone, and the pc, or only raise a fault
(R193). -/
def Obligations.OutputFrame : Prop :=
  ∀ (rs : Nat) (chars : List Nat) (s t : State),
    (exec (.putn rs) s = .next t ∨ exec (.puts chars) s = .next t ∨ exec .flush s = .next t) →
    t.regs = s.regs ∧ t.cond = s.cond ∧ t.flag = s.flag ∧ SameMemory s t ∧
    t.wcur = s.wcur ∧ t.labels = s.labels ∧ s.out <+: t.out ∧
    RunsOnOrFaults s t ∧ SameMachine s t

/-- LBL changes the label table, at its end alone and by at most one entry, and the pc, or only
raises a fault (R203). -/
def Obligations.LabelFrame : Prop :=
  ∀ (name : List Nat) (s t : State), exec (.lbl name) s = .next t →
    t.regs = s.regs ∧ t.cond = s.cond ∧ t.flag = s.flag ∧ SameMemory s t ∧
    t.wcur = s.wcur ∧ t.out = s.out ∧
    s.labels <+: t.labels ∧ t.labels.length ≤ s.labels.length + 1 ∧
    RunsOnOrFaults s t ∧ SameMachine s t

/-! ## Rules of the whole machine -/

/-- Every step keeps the invariant: a legal configuration, words in registers and memory, the memory
in its canonical form, the pc in the code region, the cursor in the user-data region, a label table
within its capacity, and a recorded fault exactly in Faulted (R5, R20, R25, R30, R32, R34, R35; the
bounds rest on decisions D2 to D5, D16, D21, D23). -/
def Obligations.StepKeepsTheInvariant : Prop :=
  ∀ s t : State, s.Inv → step s = .next t → t.Inv

/-- The invariant holds right after reset, in every legal configuration (R38, decision D24). -/
def Obligations.ResetMeetsTheInvariant : Prop :=
  State.reset.Inv ∧ ∀ (c : Cfg) (n : Nat), c.Wf → (State.resetOf c n).Inv

/-- Every operation of the host keeps the invariant too, so it holds in every state a host that
follows or breaks the protocol can bring about (R250 to R256; decisions D25 and D28, log entry
23). -/
def Obligations.HostOperationsKeepTheInvariant : Prop :=
  ∀ (s t : State) (op : HostOp), s.Inv → hostStep op s = .next t → t.Inv

/-- No step changes a cell of the code region: a program cannot modify its own code (R51, R62, an
inference the spec marks as its own). -/
def Obligations.CodeRegionIsNeverWritten : Prop :=
  ∀ s t : State, s.Inv → step s = .next t →
    ∀ a, s.cfg.codeStart ≤ a → memRead t a = memRead s a

/-- No step removes or changes a label entry or an output byte, and the cursor never moves back or by
more than one cell (R34, R35, R36; decisions D16 and D18). -/
def Obligations.TablesOnlyGrow : Prop :=
  ∀ s t : State, step s = .next t →
    s.labels <+: t.labels ∧ s.out <+: t.out ∧ s.wcur ≤ t.wcur ∧ t.wcur ≤ s.wcur + 1

/-- Each piece of state is written by its own family alone: the general registers by the loads and
the arithmetic, `flag` by the arithmetic, `cond` by the comparisons, memory and cursor by ST, labels
by LBL, the output by the output instructions, Halted is reached by HALT alone, and nothing writes
the configuration (R26, R28, R34, R35, R36; what each family leaves alone is an inference the spec
marks as its own). -/
def Obligations.OnlyItsFamilyWrites : Prop :=
  ∀ (i : Instr) (s t : State), exec i s = .next t →
    (t.regs ≠ s.regs → familyOf i = .load ∨ familyOf i = .arith) ∧
    (t.flag ≠ s.flag → familyOf i = .arith) ∧
    (t.cond ≠ s.cond → familyOf i = .compare) ∧
    (t.mem ≠ s.mem ∨ t.wcur ≠ s.wcur → familyOf i = .store) ∧
    (t.labels ≠ s.labels → familyOf i = .label) ∧
    (t.out ≠ s.out → familyOf i = .output) ∧
    (t.status = .halted → s.status = .halted ∨ familyOf i = .halt) ∧
    SameMachine s t

/-- The pc after an instruction: a taken jump sets it to the address of an entry with its name, every
other instruction that goes on sets it to the word after its own last word, inside memory, and HALT
and a faulting instruction leave it (R24, R25, R82, R116, R179; decisions D23 and D33, log entries
19 and 27). -/
def Obligations.PcAfterAnInstruction : Prop :=
  ∀ (i : Instr) (s t : State), s.status = .running → exec i s = .next t →
    (t.status = .running →
      (∃ name, jumpOf s i = some (name, true) ∧
        ∃ l ∈ s.labels, l.name = name ∧ t.pc = l.address) ∨
      ((∀ name, jumpOf s i ≠ some (name, true)) ∧
        t.pc = s.pc + (encode s.cfg i).length ∧ t.pc < s.cfg.memoryMax)) ∧
    (t.status ≠ .running → t.pc = s.pc)

/-- WriteAppend, the write of ST, fills the user-data region from cell 0 and then overwrites its
last cell: after it has stored a list of words from cursor 0, the cursor is the smaller of their
number and DATA_END - 1, each word stored before saturation is in its own cell, and the last cell
holds the latest of the rest (R57, R264; decision D16, log entry 22). -/
def Obligations.StoresFillThenSaturate : Prop :=
  ∀ (s : State) (vs : List Nat), s.wcur = 0 → 0 < s.cfg.dataEnd →
    (vs.foldl (fun u v => writeAppend v u) s).wcur = min vs.length (s.cfg.dataEnd - 1) ∧
    (∀ (k : Nat) (h : k < vs.length), k < s.cfg.dataEnd - 1 →
      memRead (vs.foldl (fun u v => writeAppend v u) s) k = vs[k]) ∧
    (∀ v, s.cfg.dataEnd ≤ vs.length → vs.getLast? = some v →
      memRead (vs.foldl (fun u v => writeAppend v u) s) (s.cfg.dataEnd - 1) = v)

/-- A load of the cell a store has just written returns the stored word, in any register (R52,
R59; the load's address is decision D15, log entry 12). -/
def Obligations.LoadAfterStoreReturnsTheWord : Prop :=
  ∀ (s : State) (r d : Fin 8), s.cfg.Wf → s.wcur < s.cfg.dataEnd →
    s.pc + 5 < s.cfg.memoryMax →
    ∃ t u, exec (.st r) s = .next t ∧ exec (.ld d s.wcur) t = .next u ∧
      u.regs.get d = s.regs.get r

/-! ## The host interface -/

/-- LoadCode (R253): a sequence that leaves room for the halt word is copied to the code region from
its start with the halt opcode after it, and no other cell changes; a longer one fails with
CodeTooLarge and writes no cell. (That the failure is shown in `status` and `err` is R254, decision
D28; the status `idle` before it is the model's, log entries 6 and 23.) -/
def Obligations.LoadCodeWritesTheImage : Prop :=
  ∀ (s : State) (words : List Nat), s.status = .idle → (∀ v ∈ words, IsWord s.cfg.w v) →
    ∃ t, hostStep (.loadCode words) s = .next t ∧
      (words.length + 1 ≤ s.cfg.codeCap →
        (∀ (k : Nat) (h : k < words.length), memRead t (s.cfg.codeStart + k) = words[k]) ∧
        memRead t (s.cfg.codeStart + words.length) = s.cfg.opc.halt ∧
        (∀ a, a < s.cfg.codeStart ∨ s.cfg.codeStart + words.length < a →
          memRead t a = memRead s a) ∧
        t = { s with mem := t.mem, status := .loaded }) ∧
      (s.cfg.codeCap < words.length + 1 →
        t = { s with status := .faulted, err := some (.codeTooLarge words.length) })

/-- The protocol of the host: Preset writes one general register and Start makes the core Running,
each after a successful LoadCode alone; out of order, or with an index above 7, there is no
transition (R252, R255, R256; decision D25 and the treatment `stuck` of U16, log entry 23). -/
def Obligations.HostFollowsTheProtocol : Prop :=
  ∀ s : State,
    (s.status = .loaded →
      hostStep .start s = .next { s with status := .running } ∧
      ∀ (k : Fin 8) (v : Nat), IsWord s.cfg.w v →
        hostStep (.preset k v) s = .next { s with regs := s.regs.set v k }) ∧
    (s.status ≠ .loaded →
      hostStep .start s = .fault .hostProtocol ∧
      ∀ k v : Nat, hostStep (.preset k v) s = .fault .hostProtocol) ∧
    (∀ k v : Nat, 7 < k → hostStep (.preset k v) s = .fault .hostProtocol) ∧
    (s.status ≠ .idle → ∀ words, hostStep (.loadCode words) s = .fault .hostProtocol)

/-- Reset, in any state: general registers, `cond` and cursor 0, `flag` FL_NONE, labels and output
empty, no fault recorded, the pc at CODE_START, no memory cell written, the configuration kept (R38,
R250; decision D24). That the status is `idle` and that the choice of the launch memory moves on is
the model's (log entries 4 and 6). -/
def Obligations.ResetLeavesTheResetState : Prop :=
  ∀ s : State, ∃ t, hostStep .reset s = .next t ∧
    (∀ k : Fin 8, t.regs.get k = 0) ∧ t.pc = s.cfg.codeStart ∧ t.cond = false ∧
    t.flag = .none ∧ t.wcur = 0 ∧ t.labels = [] ∧ t.out = [] ∧ t.err = none ∧ t.mem = [] ∧
    t.cfg = s.cfg ∧ t.status = .idle ∧ t.launch = s.launch + 1

/-- From any state, reset, a load of a program that fits and a start bring the core to the first
instruction of the program, and the next step runs it (R251, R253, R256; decision D25, log
entry 7). -/
def Obligations.LoadedProgramRunsFromItsFirstWord : Prop :=
  ∀ (s : State) (i : Instr) (rest : List Nat), s.cfg.Wf → i.wellFormed s.cfg = true →
    (∀ v ∈ rest, IsWord s.cfg.w v) →
    (encode s.cfg i ++ rest).length + 1 ≤ s.cfg.codeCap →
    ∃ r t u, hostStep .reset s = .next r ∧
      hostStep (.loadCode (encode s.cfg i ++ rest)) r = .next t ∧
      hostStep .start t = .next u ∧
      u.pc = s.cfg.codeStart ∧ u.status = .running ∧ step u = exec i u

/-- The read accessors (R258): a word or OutOfBounds, the first `k` words of memory, the registers
with the numerals of `cond` and `flag`, the status, the output, and the code of the recorded fault
as the table of R220 numbers the kinds, 0 for none (R26, R27, R220; decisions D12, D13, D21 and D30,
log entries 8, 24 and 26). -/
def Obligations.AccessorsShowTheState : Prop :=
  ∀ s : State,
    (∀ a, a < s.cfg.memoryMax → readWord a s = .ok (memRead s a)) ∧
    (∀ a, s.cfg.memoryMax ≤ a → readWord a s = .error (.outOfBounds a)) ∧
    (∀ k, k ≤ s.cfg.memoryMax → ∃ ws, readMem k s = .ok ws ∧ ws.length = k ∧
      ∀ (j : Nat) (h : j < ws.length), ws[j] = memRead s j) ∧
    (readRegs s).x = s.regs ∧ (readRegs s).pc = s.pc ∧
    (readRegs s).cond = (if s.cond then 1 else 0) ∧
    (readRegs s).flag = (if s.flag = .zero then 1 else if s.flag = .neg then 2 else 0) ∧
    readStatus s = s.status ∧ readOut s = s.out ∧
    readErr s = match s.err with
      | none => 0
      | some (.unrecognizedOperation _) => 1
      | some (.registerOutOfBounds _) => 2
      | some (.offsetOutOfBounds _) => 3
      | some (.outOfBounds _) => 4
      | some (.codeTooLarge _) => 5
      | some .tooManyLabels => 6
      | some (.undefinedLabel _) => 7
      | some .divisionByZero => 8
      | some (.nameTooLong _) => 9
end

