-- ==== Sys2Proof/Laws/State.lean ====
section
/-!
SUPPORT. One lemma per field per update of the state, each true by unfolding one record update, so
that no later proof unfolds one.
-/

namespace Sys2Proof.Machine

@[simp] theorem memWrite_cfg (a : Nat) (v : Nat) (s : State) : (memWrite a v s).cfg = s.cfg := rfl
@[simp] theorem memWrite_regs (a : Nat) (v : Nat) (s : State) : (memWrite a v s).regs = s.regs := rfl
@[simp] theorem memWrite_pc (a : Nat) (v : Nat) (s : State) : (memWrite a v s).pc = s.pc := rfl
@[simp] theorem memWrite_cond (a : Nat) (v : Nat) (s : State) : (memWrite a v s).cond = s.cond := rfl
@[simp] theorem memWrite_flag (a : Nat) (v : Nat) (s : State) : (memWrite a v s).flag = s.flag := rfl
@[simp] theorem memWrite_mem (a : Nat) (v : Nat) (s : State) : (memWrite a v s).mem = memInsert a v s.mem := rfl
@[simp] theorem memWrite_wcur (a : Nat) (v : Nat) (s : State) : (memWrite a v s).wcur = s.wcur := rfl
@[simp] theorem memWrite_labels (a : Nat) (v : Nat) (s : State) : (memWrite a v s).labels = s.labels := rfl
@[simp] theorem memWrite_out (a : Nat) (v : Nat) (s : State) : (memWrite a v s).out = s.out := rfl
@[simp] theorem memWrite_status (a : Nat) (v : Nat) (s : State) : (memWrite a v s).status = s.status := rfl
@[simp] theorem memWrite_err (a : Nat) (v : Nat) (s : State) : (memWrite a v s).err = s.err := rfl
@[simp] theorem memWrite_launch (a : Nat) (v : Nat) (s : State) : (memWrite a v s).launch = s.launch := rfl

@[simp] theorem setReg_cfg (i : Fin 8) (v : Nat) (s : State) : (setReg i v s).cfg = s.cfg := rfl
@[simp] theorem setReg_regs (i : Fin 8) (v : Nat) (s : State) : (setReg i v s).regs = s.regs.set v i := rfl
@[simp] theorem setReg_pc (i : Fin 8) (v : Nat) (s : State) : (setReg i v s).pc = s.pc := rfl
@[simp] theorem setReg_cond (i : Fin 8) (v : Nat) (s : State) : (setReg i v s).cond = s.cond := rfl
@[simp] theorem setReg_flag (i : Fin 8) (v : Nat) (s : State) : (setReg i v s).flag = s.flag := rfl
@[simp] theorem setReg_mem (i : Fin 8) (v : Nat) (s : State) : (setReg i v s).mem = s.mem := rfl
@[simp] theorem setReg_wcur (i : Fin 8) (v : Nat) (s : State) : (setReg i v s).wcur = s.wcur := rfl
@[simp] theorem setReg_labels (i : Fin 8) (v : Nat) (s : State) : (setReg i v s).labels = s.labels := rfl
@[simp] theorem setReg_out (i : Fin 8) (v : Nat) (s : State) : (setReg i v s).out = s.out := rfl
@[simp] theorem setReg_status (i : Fin 8) (v : Nat) (s : State) : (setReg i v s).status = s.status := rfl
@[simp] theorem setReg_err (i : Fin 8) (v : Nat) (s : State) : (setReg i v s).err = s.err := rfl
@[simp] theorem setReg_launch (i : Fin 8) (v : Nat) (s : State) : (setReg i v s).launch = s.launch := rfl

@[simp] theorem setPc_cfg (a : Nat) (s : State) : (setPc a s).cfg = s.cfg := rfl
@[simp] theorem setPc_regs (a : Nat) (s : State) : (setPc a s).regs = s.regs := rfl
@[simp] theorem setPc_pc (a : Nat) (s : State) : (setPc a s).pc = a := rfl
@[simp] theorem setPc_cond (a : Nat) (s : State) : (setPc a s).cond = s.cond := rfl
@[simp] theorem setPc_flag (a : Nat) (s : State) : (setPc a s).flag = s.flag := rfl
@[simp] theorem setPc_mem (a : Nat) (s : State) : (setPc a s).mem = s.mem := rfl
@[simp] theorem setPc_wcur (a : Nat) (s : State) : (setPc a s).wcur = s.wcur := rfl
@[simp] theorem setPc_labels (a : Nat) (s : State) : (setPc a s).labels = s.labels := rfl
@[simp] theorem setPc_out (a : Nat) (s : State) : (setPc a s).out = s.out := rfl
@[simp] theorem setPc_status (a : Nat) (s : State) : (setPc a s).status = s.status := rfl
@[simp] theorem setPc_err (a : Nat) (s : State) : (setPc a s).err = s.err := rfl
@[simp] theorem setPc_launch (a : Nat) (s : State) : (setPc a s).launch = s.launch := rfl

@[simp] theorem setCond_cfg (b : Bool) (s : State) : (setCond b s).cfg = s.cfg := rfl
@[simp] theorem setCond_regs (b : Bool) (s : State) : (setCond b s).regs = s.regs := rfl
@[simp] theorem setCond_pc (b : Bool) (s : State) : (setCond b s).pc = s.pc := rfl
@[simp] theorem setCond_cond (b : Bool) (s : State) : (setCond b s).cond = b := rfl
@[simp] theorem setCond_flag (b : Bool) (s : State) : (setCond b s).flag = s.flag := rfl
@[simp] theorem setCond_mem (b : Bool) (s : State) : (setCond b s).mem = s.mem := rfl
@[simp] theorem setCond_wcur (b : Bool) (s : State) : (setCond b s).wcur = s.wcur := rfl
@[simp] theorem setCond_labels (b : Bool) (s : State) : (setCond b s).labels = s.labels := rfl
@[simp] theorem setCond_out (b : Bool) (s : State) : (setCond b s).out = s.out := rfl
@[simp] theorem setCond_status (b : Bool) (s : State) : (setCond b s).status = s.status := rfl
@[simp] theorem setCond_err (b : Bool) (s : State) : (setCond b s).err = s.err := rfl
@[simp] theorem setCond_launch (b : Bool) (s : State) : (setCond b s).launch = s.launch := rfl

@[simp] theorem setFlag_cfg (f : Flag) (s : State) : (setFlag f s).cfg = s.cfg := rfl
@[simp] theorem setFlag_regs (f : Flag) (s : State) : (setFlag f s).regs = s.regs := rfl
@[simp] theorem setFlag_pc (f : Flag) (s : State) : (setFlag f s).pc = s.pc := rfl
@[simp] theorem setFlag_cond (f : Flag) (s : State) : (setFlag f s).cond = s.cond := rfl
@[simp] theorem setFlag_flag (f : Flag) (s : State) : (setFlag f s).flag = f := rfl
@[simp] theorem setFlag_mem (f : Flag) (s : State) : (setFlag f s).mem = s.mem := rfl
@[simp] theorem setFlag_wcur (f : Flag) (s : State) : (setFlag f s).wcur = s.wcur := rfl
@[simp] theorem setFlag_labels (f : Flag) (s : State) : (setFlag f s).labels = s.labels := rfl
@[simp] theorem setFlag_out (f : Flag) (s : State) : (setFlag f s).out = s.out := rfl
@[simp] theorem setFlag_status (f : Flag) (s : State) : (setFlag f s).status = s.status := rfl
@[simp] theorem setFlag_err (f : Flag) (s : State) : (setFlag f s).err = s.err := rfl
@[simp] theorem setFlag_launch (f : Flag) (s : State) : (setFlag f s).launch = s.launch := rfl

@[simp] theorem setStatus_cfg (st : Status) (s : State) : (setStatus st s).cfg = s.cfg := rfl
@[simp] theorem setStatus_regs (st : Status) (s : State) : (setStatus st s).regs = s.regs := rfl
@[simp] theorem setStatus_pc (st : Status) (s : State) : (setStatus st s).pc = s.pc := rfl
@[simp] theorem setStatus_cond (st : Status) (s : State) : (setStatus st s).cond = s.cond := rfl
@[simp] theorem setStatus_flag (st : Status) (s : State) : (setStatus st s).flag = s.flag := rfl
@[simp] theorem setStatus_mem (st : Status) (s : State) : (setStatus st s).mem = s.mem := rfl
@[simp] theorem setStatus_wcur (st : Status) (s : State) : (setStatus st s).wcur = s.wcur := rfl
@[simp] theorem setStatus_labels (st : Status) (s : State) : (setStatus st s).labels = s.labels := rfl
@[simp] theorem setStatus_out (st : Status) (s : State) : (setStatus st s).out = s.out := rfl
@[simp] theorem setStatus_status (st : Status) (s : State) : (setStatus st s).status = st := rfl
@[simp] theorem setStatus_err (st : Status) (s : State) : (setStatus st s).err = s.err := rfl
@[simp] theorem setStatus_launch (st : Status) (s : State) : (setStatus st s).launch = s.launch := rfl

@[simp] theorem emit_cfg (bs : List Byte) (s : State) : (emit bs s).cfg = s.cfg := rfl
@[simp] theorem emit_regs (bs : List Byte) (s : State) : (emit bs s).regs = s.regs := rfl
@[simp] theorem emit_pc (bs : List Byte) (s : State) : (emit bs s).pc = s.pc := rfl
@[simp] theorem emit_cond (bs : List Byte) (s : State) : (emit bs s).cond = s.cond := rfl
@[simp] theorem emit_flag (bs : List Byte) (s : State) : (emit bs s).flag = s.flag := rfl
@[simp] theorem emit_mem (bs : List Byte) (s : State) : (emit bs s).mem = s.mem := rfl
@[simp] theorem emit_wcur (bs : List Byte) (s : State) : (emit bs s).wcur = s.wcur := rfl
@[simp] theorem emit_labels (bs : List Byte) (s : State) : (emit bs s).labels = s.labels := rfl
@[simp] theorem emit_out (bs : List Byte) (s : State) : (emit bs s).out = s.out ++ bs := rfl
@[simp] theorem emit_status (bs : List Byte) (s : State) : (emit bs s).status = s.status := rfl
@[simp] theorem emit_err (bs : List Byte) (s : State) : (emit bs s).err = s.err := rfl
@[simp] theorem emit_launch (bs : List Byte) (s : State) : (emit bs s).launch = s.launch := rfl

@[simp] theorem define_cfg (a : Nat) (name : List Nat) (s : State) : (define a name s).cfg = s.cfg := rfl
@[simp] theorem define_regs (a : Nat) (name : List Nat) (s : State) : (define a name s).regs = s.regs := rfl
@[simp] theorem define_pc (a : Nat) (name : List Nat) (s : State) : (define a name s).pc = s.pc := rfl
@[simp] theorem define_cond (a : Nat) (name : List Nat) (s : State) : (define a name s).cond = s.cond := rfl
@[simp] theorem define_flag (a : Nat) (name : List Nat) (s : State) : (define a name s).flag = s.flag := rfl
@[simp] theorem define_mem (a : Nat) (name : List Nat) (s : State) : (define a name s).mem = s.mem := rfl
@[simp] theorem define_wcur (a : Nat) (name : List Nat) (s : State) : (define a name s).wcur = s.wcur := rfl
@[simp] theorem define_labels (a : Nat) (name : List Nat) (s : State) : (define a name s).labels = s.labels ++ [⟨a, name⟩] := rfl
@[simp] theorem define_out (a : Nat) (name : List Nat) (s : State) : (define a name s).out = s.out := rfl
@[simp] theorem define_status (a : Nat) (name : List Nat) (s : State) : (define a name s).status = s.status := rfl
@[simp] theorem define_err (a : Nat) (name : List Nat) (s : State) : (define a name s).err = s.err := rfl
@[simp] theorem define_launch (a : Nat) (name : List Nat) (s : State) : (define a name s).launch = s.launch := rfl

@[simp] theorem takeFault_cfg (e : Err) (s : State) : (takeFault e s).cfg = s.cfg := rfl
@[simp] theorem takeFault_regs (e : Err) (s : State) : (takeFault e s).regs = s.regs := rfl
@[simp] theorem takeFault_pc (e : Err) (s : State) : (takeFault e s).pc = s.pc := rfl
@[simp] theorem takeFault_cond (e : Err) (s : State) : (takeFault e s).cond = s.cond := rfl
@[simp] theorem takeFault_flag (e : Err) (s : State) : (takeFault e s).flag = s.flag := rfl
@[simp] theorem takeFault_mem (e : Err) (s : State) : (takeFault e s).mem = s.mem := rfl
@[simp] theorem takeFault_wcur (e : Err) (s : State) : (takeFault e s).wcur = s.wcur := rfl
@[simp] theorem takeFault_labels (e : Err) (s : State) : (takeFault e s).labels = s.labels := rfl
@[simp] theorem takeFault_out (e : Err) (s : State) : (takeFault e s).out = s.out := rfl
@[simp] theorem takeFault_status (e : Err) (s : State) : (takeFault e s).status = .faulted := rfl
@[simp] theorem takeFault_err (e : Err) (s : State) : (takeFault e s).err = some e := rfl
@[simp] theorem takeFault_launch (e : Err) (s : State) : (takeFault e s).launch = s.launch := rfl

@[simp] theorem writeAppend_cfg (v : Nat) (s : State) : (writeAppend v s).cfg = s.cfg := by
  simp only [writeAppend]; split <;> rfl
@[simp] theorem writeAppend_regs (v : Nat) (s : State) : (writeAppend v s).regs = s.regs := by
  simp only [writeAppend]; split <;> rfl
@[simp] theorem writeAppend_pc (v : Nat) (s : State) : (writeAppend v s).pc = s.pc := by
  simp only [writeAppend]; split <;> rfl
@[simp] theorem writeAppend_cond (v : Nat) (s : State) : (writeAppend v s).cond = s.cond := by
  simp only [writeAppend]; split <;> rfl
@[simp] theorem writeAppend_flag (v : Nat) (s : State) : (writeAppend v s).flag = s.flag := by
  simp only [writeAppend]; split <;> rfl
@[simp] theorem writeAppend_mem (v : Nat) (s : State) : (writeAppend v s).mem = memInsert s.wcur v s.mem := by
  simp only [writeAppend]; split <;> rfl
@[simp] theorem writeAppend_wcur (v : Nat) (s : State) :
    (writeAppend v s).wcur = if s.wcur < s.cfg.dataEnd - 1 then s.wcur + 1 else s.wcur := by
  simp only [writeAppend]; split <;> rfl
@[simp] theorem writeAppend_labels (v : Nat) (s : State) : (writeAppend v s).labels = s.labels := by
  simp only [writeAppend]; split <;> rfl
@[simp] theorem writeAppend_out (v : Nat) (s : State) : (writeAppend v s).out = s.out := by
  simp only [writeAppend]; split <;> rfl
@[simp] theorem writeAppend_status (v : Nat) (s : State) : (writeAppend v s).status = s.status := by
  simp only [writeAppend]; split <;> rfl
@[simp] theorem writeAppend_err (v : Nat) (s : State) : (writeAppend v s).err = s.err := by
  simp only [writeAppend]; split <;> rfl
@[simp] theorem writeAppend_launch (v : Nat) (s : State) : (writeAppend v s).launch = s.launch := by
  simp only [writeAppend]; split <;> rfl

@[simp] theorem arithWrite_cfg (d : Fin 8) (res : Int) (next : Nat) (s : State) :
    (arithWrite d res next s).cfg = s.cfg := rfl
@[simp] theorem arithWrite_regs (d : Fin 8) (res : Int) (next : Nat) (s : State) :
    (arithWrite d res next s).regs = s.regs.set (narrow s.cfg.w res) d := rfl
@[simp] theorem arithWrite_pc (d : Fin 8) (res : Int) (next : Nat) (s : State) :
    (arithWrite d res next s).pc = next := rfl
@[simp] theorem arithWrite_cond (d : Fin 8) (res : Int) (next : Nat) (s : State) :
    (arithWrite d res next s).cond = s.cond := rfl
@[simp] theorem arithWrite_flag (d : Fin 8) (res : Int) (next : Nat) (s : State) :
    (arithWrite d res next s).flag = classify res := rfl
@[simp] theorem arithWrite_mem (d : Fin 8) (res : Int) (next : Nat) (s : State) :
    (arithWrite d res next s).mem = s.mem := rfl
@[simp] theorem arithWrite_wcur (d : Fin 8) (res : Int) (next : Nat) (s : State) :
    (arithWrite d res next s).wcur = s.wcur := rfl
@[simp] theorem arithWrite_labels (d : Fin 8) (res : Int) (next : Nat) (s : State) :
    (arithWrite d res next s).labels = s.labels := rfl
@[simp] theorem arithWrite_out (d : Fin 8) (res : Int) (next : Nat) (s : State) :
    (arithWrite d res next s).out = s.out := rfl
@[simp] theorem arithWrite_status (d : Fin 8) (res : Int) (next : Nat) (s : State) :
    (arithWrite d res next s).status = s.status := rfl
@[simp] theorem arithWrite_err (d : Fin 8) (res : Int) (next : Nat) (s : State) :
    (arithWrite d res next s).err = s.err := rfl
@[simp] theorem arithWrite_launch (d : Fin 8) (res : Int) (next : Nat) (s : State) :
    (arithWrite d res next s).launch = s.launch := rfl

end Sys2Proof.Machine
end

