-- ==== Sys2Proof/Laws/Memory.lean ====
section
/-!
SUPPORT. The laws of memory (spec/20_memory.md rules R52, R57): a read after a write, the words of
a list written in a row, and that every memory operation keeps the canonical form.
-/

namespace Sys2Proof.Machine

theorem memLookup_memInsert (a b : Nat) (v : Nat) (m : Memory) :
    memLookup b (memInsert a v m) = if b = a then some v else memLookup b m := by
  induction m with
  | nil => simp [memInsert, memLookup]
  | cons cell m ih =>
    obtain ⟨c, u⟩ := cell
    unfold memInsert
    split
    · simp [memLookup]
    · split
      · next h => subst h; by_cases hb : b = a <;> simp [memLookup, hb]
      · next h1 h2 =>
        by_cases hb : b = c
        · have : b ≠ a := by omega
          simp [memLookup, hb]
          intro h; omega
        · simp [memLookup, hb, ih]

/-- Reading a cell after a write (R52): the written word there, every other cell as before. -/
@[simp] theorem memRead_memWrite (a b : Nat) (v : Nat) (s : State) :
    memRead (memWrite a v s) b = if b = a then v else memRead s b := by
  simp only [memRead, memWrite_mem, memLookup_memInsert, launchWord, memWrite_launch, memWrite_cfg]
  by_cases h : b = a <;> simp [h]

/-- A state with the same memory, launch memory and width reads the same. -/
theorem memRead_congr {s t : State} (hm : t.mem = s.mem) (hl : t.launch = s.launch)
    (hc : t.cfg = s.cfg) (a : Nat) : memRead t a = memRead s a := by
  simp [memRead, launchWord, hm, hl, hc]

@[simp] theorem memRead_setReg (i : Fin 8) (v : Nat) (s : State) (a : Nat) :
    memRead (setReg i v s) a = memRead s a := rfl
@[simp] theorem memRead_setPc (p : Nat) (s : State) (a : Nat) :
    memRead (setPc p s) a = memRead s a := rfl
@[simp] theorem memRead_setCond (b : Bool) (s : State) (a : Nat) :
    memRead (setCond b s) a = memRead s a := rfl
@[simp] theorem memRead_setFlag (f : Flag) (s : State) (a : Nat) :
    memRead (setFlag f s) a = memRead s a := rfl
@[simp] theorem memRead_setStatus (st : Status) (s : State) (a : Nat) :
    memRead (setStatus st s) a = memRead s a := rfl
@[simp] theorem memRead_emit (bs : List Byte) (s : State) (a : Nat) :
    memRead (emit bs s) a = memRead s a := rfl
@[simp] theorem memRead_define (b : Nat) (name : List Nat) (s : State) (a : Nat) :
    memRead (define b name s) a = memRead s a := rfl
@[simp] theorem memRead_takeFault (e : Err) (s : State) (a : Nat) :
    memRead (takeFault e s) a = memRead s a := rfl
@[simp] theorem memRead_arithWrite (d : Fin 8) (res : Int) (next : Nat) (s : State) (a : Nat) :
    memRead (arithWrite d res next s) a = memRead s a := rfl

/-- `WriteAppend` (R57) writes the cell at the cursor and no other. -/
@[simp] theorem memRead_writeAppend (v : Nat) (s : State) (a : Nat) :
    memRead (writeAppend v s) a = if a = s.wcur then v else memRead s a := by
  rw [← memRead_memWrite]
  exact memRead_congr (by simp) (by simp) (by simp) a

/-- The words of a list land at consecutive cells and nowhere else. -/
theorem memRead_memWriteList (ws : List Nat) (a b : Nat) (s : State) :
    memRead (memWriteList a ws s) b =
      if h : a ≤ b ∧ b - a < ws.length then ws[b - a] else memRead s b := by
  induction ws generalizing a s with
  | nil => simp [memWriteList]
  | cons v ws ih =>
    rw [memWriteList, ih, memRead_memWrite]
    by_cases hb : b = a
    · subst hb; simp
    · by_cases hlt : a + 1 ≤ b
      · have hk : b - a = (b - (a + 1)) + 1 := by omega
        by_cases hin : b - (a + 1) < ws.length
        · rw [dif_pos ⟨hlt, hin⟩, dif_pos ⟨by omega, by simp; omega⟩]
          simp [hk]
        · rw [dif_neg (by omega), if_neg hb, dif_neg (by simp; omega)]
      · rw [dif_neg (by omega), if_neg hb, dif_neg (by omega)]

/-- Writing a list of words touches the memory alone. -/
theorem memWriteList_eq (ws : List Nat) (a : Nat) (s : State) :
    ∃ m, memWriteList a ws s = { s with mem := m } := by
  induction ws generalizing a s with
  | nil => exact ⟨s.mem, rfl⟩
  | cons v ws ih =>
    obtain ⟨m, hm⟩ := ih (a + 1) (memWrite a v s)
    exact ⟨m, by rw [memWriteList, hm]; rfl⟩

theorem mem_memInsert {a : Nat} {v : Nat} {m : Memory} {cell : Cell}
    (h : cell ∈ memInsert a v m) : cell = (a, v) ∨ cell ∈ m := by
  induction m with
  | nil => simpa [memInsert] using h
  | cons hd m ih =>
    obtain ⟨b, u⟩ := hd
    unfold memInsert at h
    split at h
    · simpa using h
    · split at h
      · rcases List.mem_cons.1 h with h | h
        · exact .inl h
        · exact .inr (List.mem_cons_of_mem _ h)
      · rcases List.mem_cons.1 h with h | h
        · exact .inr (h ▸ List.mem_cons_self ..)
        · exact (ih h).imp id (List.mem_cons_of_mem _)

/-- A write keeps the canonical form. -/
theorem memInsert_wf (a : Nat) (v : Nat) {m : Memory} (h : Memory.Wf m) :
    Memory.Wf (memInsert a v m) := by
  induction m with
  | nil => simp [Memory.Wf, memInsert]
  | cons hd m ih =>
    obtain ⟨b, u⟩ := hd
    simp only [Memory.Wf, List.map_cons, List.pairwise_cons, List.mem_map,
      forall_exists_index, and_imp, forall_apply_eq_imp_iff₂] at h ih ⊢
    obtain ⟨hb, hm⟩ := h
    unfold memInsert
    split
    · next hab =>
      simp only [List.map_cons, List.pairwise_cons, List.mem_cons, List.mem_map]
      refine ⟨?_, ⟨?_, hm⟩⟩
      · rintro x (rfl | ⟨c, hc, rfl⟩)
        · exact hab
        · exact lt_trans hab (hb c hc)
      · rintro x ⟨c, hc, rfl⟩
        exact hb c hc
    · split
      · next hab => subst hab; simpa using ⟨fun c u hc => hb (c, u) hc, hm⟩
      · next h1 h2 =>
        simp only [List.map_cons, List.pairwise_cons, List.mem_map]
        refine ⟨?_, ih hm⟩
        rintro x ⟨c, hc, rfl⟩
        rcases mem_memInsert hc with rfl | hc
        · show b < a; omega
        · exact hb c hc

/-- Writing a list of words keeps the canonical form. -/
theorem memWriteList_wf (ws : List Nat) (a : Nat) {s : State} (h : Memory.Wf s.mem) :
    Memory.Wf (memWriteList a ws s).mem := by
  induction ws generalizing a s with
  | nil => exact h
  | cons v ws ih => exact ih (a + 1) (s := memWrite a v s) (memInsert_wf a v h)

/-- `WriteAppend` keeps the canonical form. -/
theorem writeAppend_wf (v : Nat) {s : State} (h : Memory.Wf s.mem) :
    Memory.Wf (writeAppend v s).mem := by
  rw [writeAppend_mem]; exact memInsert_wf _ _ h

/-- The memory of the reset state is in its canonical form. -/
theorem resetOf_memory_wf (c : Cfg) (n : Nat) : Memory.Wf (State.resetOf c n).mem :=
  List.Pairwise.nil

/-- The Boolean form says what the proposition says. -/
theorem memory_wf_iff (m : Memory) : Memory.wf m = true ↔ Memory.Wf m := by
  simp [Memory.wf]

/-- Membership after writing a list of words: a cell of the list or one that stood before. -/
theorem mem_memWriteList {ws : List Nat} {a : Nat} {s : State} {cell : Cell}
    (h : cell ∈ (memWriteList a ws s).mem) :
    cell ∈ s.mem ∨ (a ≤ cell.1 ∧ cell.1 < a + ws.length ∧ cell.2 ∈ ws) := by
  induction ws generalizing a s with
  | nil => exact .inl h
  | cons v ws ih =>
    rcases ih h with h | ⟨h1, h2, h3⟩
    · rcases mem_memInsert h with rfl | h
      · exact .inr ⟨le_refl _, by simp, by simp⟩
      · exact .inl h
    · exact .inr ⟨by omega, by simp; omega, by simp [h3]⟩

end Sys2Proof.Machine
end

