-- ==== Sys2Proof/Laws/Ops.lean ====
section
/-!
SUPPORT. For each shared operation, what it answers and when: the checks (`regIdx`, `nextPc`,
`fetch`, `loadAddr`, `labelRoom`, `resolve`), the register file, the narrowing, and the templates of
the instruction families.
-/

namespace Sys2Proof.Machine

/-- The register file (R20): the register written holds the value, the others what they held. -/
@[simp] theorem regs_get_set (r : Regs) (v : Nat) (i j : Fin 8) :
    (r.set v i).get j = if j = i then v else r.get j := by
  fin_cases i <;> fin_cases j <;> rfl

/-- `Reg` of an index (R114). -/
@[simp] theorem regIdx_val (k : Fin 8) : regIdx k.val = .ok k := by
  simp [regIdx, k.isLt]

/-- `Reg` above 7 (R114). -/
theorem regIdx_error {v : Nat} (h : 7 < v) : regIdx v = .error (.registerOutOfBounds v) := by
  simp [regIdx]; omega

theorem regIdx_of_lt {v : Nat} (h : v < 8) : regIdx v = .ok ⟨v, h⟩ := by simp [regIdx, h]

/-- Everything `Reg` can answer. -/
theorem regIdx_cases (v : Nat) :
    (∃ h : v < 8, regIdx v = .ok ⟨v, h⟩) ∨
    (7 < v ∧ regIdx v = .error (.registerOutOfBounds v)) := by
  by_cases h : v < 8
  · exact .inl ⟨h, regIdx_of_lt h⟩
  · exact .inr ⟨by omega, regIdx_error (by omega)⟩

/-- `NextPc` inside memory (R116). -/
theorem nextPc_ok {len : Nat} {s : State} (h : s.pc + len < s.cfg.memoryMax) :
    nextPc len s = .ok (s.pc + len) := by
  simp [nextPc, h]

/-- `NextPc` past the end of memory (R116). -/
theorem nextPc_error {len : Nat} {s : State} (h : s.cfg.memoryMax ≤ s.pc + len) :
    nextPc len s = .error (.outOfBounds (s.pc + len)) := by
  simp [nextPc, h]

/-- Everything `NextPc` can answer. -/
theorem nextPc_cases (len : Nat) (s : State) :
    (s.pc + len < s.cfg.memoryMax ∧ nextPc len s = .ok (s.pc + len)) ∨
    (s.cfg.memoryMax ≤ s.pc + len ∧ nextPc len s = .error (.outOfBounds (s.pc + len))) := by
  by_cases h : s.pc + len < s.cfg.memoryMax
  · exact .inl ⟨h, nextPc_ok h⟩
  · exact .inr ⟨by omega, nextPc_error (by omega)⟩

/-- `Fetch` inside memory (R53). -/
theorem fetch_ok {s : State} {a : Nat} (h : a < s.cfg.memoryMax) :
    fetch s a = .ok (memRead s a) := by
  simp [fetch, h]

/-- `Fetch` past the end of memory (R53). -/
theorem fetch_error {s : State} {a : Nat} (h : s.cfg.memoryMax ≤ a) :
    fetch s a = .error (.outOfBounds a) := by
  simp [fetch, h]

/-- What `Fetch` answering a word says. -/
theorem fetch_eq_ok {s : State} {a : Nat} {v : Nat} :
    fetch s a = .ok v ↔ a < s.cfg.memoryMax ∧ v = memRead s a := by
  by_cases h : a < s.cfg.memoryMax
  · simp [fetch_ok h, h, eq_comm]
  · simp [fetch_error (Nat.le_of_not_lt h), h]

/-- The capacity check of LBL (R201). -/
theorem labelRoom_cases (s : State) :
    (s.labels.length < s.cfg.labelMax ∧ labelRoom s = .ok ()) ∨
    (s.cfg.labelMax ≤ s.labels.length ∧ labelRoom s = .error .tooManyLabels) := by
  by_cases h : s.labels.length < s.cfg.labelMax
  · exact .inl ⟨h, by simp [labelRoom, h]⟩
  · exact .inr ⟨by omega, by simp [labelRoom]; omega⟩

/-- `Resolve` of a name the table has (R202): the first entry with the name. -/
theorem resolve_append {name : List Nat} {pre post : List Label} {l : Label}
    (hpre : ∀ m ∈ pre, m.name ≠ name) (hl : l.name = name) :
    resolve name (pre ++ l :: post) = .ok l.address := by
  induction pre with
  | nil => simp [resolve, hl]
  | cons m pre ih =>
    have hm := hpre m (List.mem_cons_self ..)
    rw [List.cons_append, resolve, if_neg hm]
    exact ih fun x hx => hpre x (List.mem_cons_of_mem _ hx)

/-- `Resolve` of a name the table does not have (R202). -/
theorem resolve_error {name : List Nat} {ls : List Label} (h : ∀ l ∈ ls, l.name ≠ name) :
    resolve name ls = .error (.undefinedLabel name) := by
  induction ls with
  | nil => rfl
  | cons m ls ih =>
    rw [resolve, if_neg (h m (List.mem_cons_self ..))]
    exact ih fun x hx => h x (List.mem_cons_of_mem _ hx)

/-- An address `Resolve` answers is an entry's. -/
theorem resolve_ok_mem {name : List Nat} {ls : List Label} {a : Nat}
    (h : resolve name ls = .ok a) : ∃ l ∈ ls, l.name = name ∧ l.address = a := by
  induction ls with
  | nil => simp [resolve] at h
  | cons m ls ih =>
    unfold resolve at h
    split at h
    · next hm => exact ⟨m, List.mem_cons_self .., hm, by simpa using h⟩
    · obtain ⟨l, hl, h⟩ := ih h
      exact ⟨l, List.mem_cons_of_mem _ hl, h⟩

/-- `narrow` answers a word (R140). -/
theorem narrow_isWord (w : Nat) (res : Int) : IsWord w (narrow w res) := by
  have hpos : (0 : Int) < 2 ^ w := by positivity
  have h1 := Int.emod_nonneg res hpos.ne'
  have h2 := Int.emod_lt_of_pos res hpos
  have : ((narrow w res : Nat) : Int) < ((2 ^ w : Nat) : Int) := by
    rw [narrow, Int.toNat_of_nonneg h1]; push_cast; exact h2
  exact_mod_cast this

/-- `narrow` of a natural number is its remainder (R140). -/
@[simp] theorem narrow_natCast (w n : Nat) : narrow w (n : Int) = n % 2 ^ w := by
  have : ((n : Int) % 2 ^ w) = ((n % 2 ^ w : Nat) : Int) := by push_cast; rfl
  rw [narrow, this, Int.toNat_natCast]

/-- `classify` of a natural number (R141): never negative. -/
theorem classify_natCast (n : Nat) : classify (n : Int) = if n = 0 then .zero else .none := by
  unfold classify
  by_cases h : n = 0
  · simp [h]
  · have : ¬ ((n : Int) < 0) := by omega
    simp [h, this]

/-- Everything the end of an instruction can be (R10, R224). -/
theorem conclude_cases {s t : State} {r : Except Err State} (h : conclude s r = .next t) :
    r = .ok t ∨ ∃ e, r = .error e ∧ t = takeFault e s := by
  cases r with
  | ok u => exact .inl (by cases h; rfl)
  | error e => exact .inr ⟨e, rfl, by cases h; rfl⟩

@[simp] theorem conclude_ok (s t : State) : conclude s (.ok t) = .next t := rfl
@[simp] theorem conclude_error (s : State) (e : Err) :
    conclude s (.error e) = .next (takeFault e s) := rfl

/-- An instruction always answers a next state. -/
theorem conclude_next (s : State) (r : Except Err State) : ∃ t, conclude s r = .next t := by
  cases r <;> exact ⟨_, rfl⟩

/-- Peeling a check off a sequence of checks. -/
theorem bind_eq_ok {α β : Type} {x : Except Err α} {f : α → Except Err β} {b : β} :
    (x >>= f) = .ok b ↔ ∃ a, x = .ok a ∧ f a = .ok b := by
  cases x with
  | ok a => exact ⟨fun h => ⟨a, rfl, h⟩, fun ⟨_, h1, h2⟩ => by cases h1; exact h2⟩
  | error e => exact ⟨fun h => (nomatch h), fun ⟨_, h1, _⟩ => (nomatch h1)⟩

@[simp] theorem bind_ok {α β : Type} (a : α) (f : α → Except Err β) :
    ((Except.ok a : Except Err α) >>= f) = f a := rfl
@[simp] theorem bind_error {α β : Type} (e : Err) (f : α → Except Err β) :
    ((Except.error e : Except Err α) >>= f) = .error e := rfl

theorem regIdx_eq_ok {v : Nat} {k : Fin 8} : regIdx v = .ok k ↔ v = k.val := by
  rcases regIdx_cases v with ⟨h, hr⟩ | ⟨h, hr⟩
  · rw [hr]
    constructor
    · intro h'; cases h'; rfl
    · rintro rfl; rfl
  · rw [hr]
    constructor
    · intro h'; cases h'
    · rintro rfl; have := k.isLt; omega

theorem nextPc_eq_ok {len n : Nat} {s : State} :
    nextPc len s = .ok n ↔ n = s.pc + len ∧ s.pc + len < s.cfg.memoryMax := by
  rcases nextPc_cases len s with ⟨h, hr⟩ | ⟨h, hr⟩ <;> rw [hr]
  · simp [h, eq_comm]
  · simp; omega

/-- The exact sum as a natural number (R140). -/
theorem addRes_eq (a b : Nat) : addRes a b = .ok ((a + b : Nat) : Int) := by simp [addRes]

/-- The exact product as a natural number (R140). -/
theorem mulRes_eq (a b : Nat) : mulRes a b = .ok ((a * b : Nat) : Int) := by simp [mulRes]

/-- The quotient by a divisor that is not 0 (R149). -/
theorem divRes_eq {a b : Nat} (h : b ≠ 0) : divRes a b = .ok ((a / b : Nat) : Int) := by
  rw [divRes, if_neg h]

/-- A zero divisor (R149). -/
@[simp] theorem divRes_zero (a : Nat) : divRes a 0 = .error .divisionByZero := by simp [divRes]

/-- What a register-register arithmetic instruction that completes did (R142). -/
theorem arithRR_eq_ok {f : Nat → Nat → Except Err Int} {ra rb rd : Nat} {s t : State} :
    arithRR f ra rb rd s = .ok t ↔
      ∃ (a b d : Fin 8) (res : Int), ra = a.val ∧ rb = b.val ∧ rd = d.val ∧
        f (s.regs.get a) (s.regs.get b) = .ok res ∧ s.pc + 4 < s.cfg.memoryMax ∧
        t = arithWrite d res (s.pc + 4) s := by
  simp only [arithRR, bind_eq_ok, regIdx_eq_ok, nextPc_eq_ok, getReg]
  constructor
  · rintro ⟨a, rfl, b, rfl, d, rfl, res, hf, n, ⟨rfl, hn⟩, h⟩
    exact ⟨a, b, d, res, rfl, rfl, rfl, hf, hn, by cases h; rfl⟩
  · rintro ⟨a, b, d, res, rfl, rfl, rfl, hf, hn, rfl⟩
    exact ⟨a, rfl, b, rfl, d, rfl, res, hf, _, ⟨rfl, hn⟩, rfl⟩

/-- What a register-immediate arithmetic instruction that completes did (R142). -/
theorem arithRI_eq_ok {f : Nat → Nat → Except Err Int} {ra imm rd : Nat} {s t : State} :
    arithRI f ra imm rd s = .ok t ↔
      ∃ (a d : Fin 8) (res : Int), ra = a.val ∧ rd = d.val ∧
        f (s.regs.get a) imm = .ok res ∧ s.pc + 4 < s.cfg.memoryMax ∧
        t = arithWrite d res (s.pc + 4) s := by
  simp only [arithRI, bind_eq_ok, regIdx_eq_ok, nextPc_eq_ok, getReg]
  constructor
  · rintro ⟨a, rfl, d, rfl, res, hf, n, ⟨rfl, hn⟩, h⟩
    exact ⟨a, d, res, rfl, rfl, hf, hn, by cases h; rfl⟩
  · rintro ⟨a, d, res, rfl, rfl, hf, hn, rfl⟩
    exact ⟨a, rfl, d, rfl, res, hf, _, ⟨rfl, hn⟩, rfl⟩

/-- What a comparison that completes did (R160). -/
theorem compareRegs_eq_ok {rel : Nat → Nat → Bool} {ra rb : Nat} {s t : State} :
    compareRegs rel ra rb s = .ok t ↔
      ∃ a b : Fin 8, ra = a.val ∧ rb = b.val ∧ s.pc + 3 < s.cfg.memoryMax ∧
        t = setPc (s.pc + 3) (setCond (rel (s.regs.get a) (s.regs.get b)) s) := by
  simp only [compareRegs, bind_eq_ok, regIdx_eq_ok, nextPc_eq_ok, getReg]
  constructor
  · rintro ⟨a, rfl, b, rfl, n, ⟨rfl, hn⟩, h⟩
    exact ⟨a, b, rfl, rfl, hn, by cases h; rfl⟩
  · rintro ⟨a, b, rfl, rfl, hn, rfl⟩
    exact ⟨a, rfl, b, rfl, _, ⟨rfl, hn⟩, rfl⟩

/-- What a jump that completes did (R170): it writes the pc alone. -/
theorem jump_eq_ok {taken : Bool} {name : List Nat} {s t : State} :
    jump taken name s = .ok t ↔
      (taken = true ∧ ∃ a, resolve name s.labels = .ok a ∧ t = setPc a s) ∨
      (taken = false ∧ s.pc + (2 + name.length) < s.cfg.memoryMax ∧
        t = setPc (s.pc + (2 + name.length)) s) := by
  cases taken <;> simp only [jump, bind_eq_ok, nextPc_eq_ok, if_true, if_false, Bool.false_eq_true,
    reduceCtorEq, false_and, true_and, false_or, or_false]
  · constructor
    · rintro ⟨n, ⟨rfl, hn⟩, h⟩; exact ⟨hn, by cases h; rfl⟩
    · rintro ⟨hn, rfl⟩; exact ⟨_, ⟨rfl, hn⟩, rfl⟩
  · constructor
    · rintro ⟨n, hn, h⟩; exact ⟨n, hn, by cases h; rfl⟩
    · rintro ⟨n, hn, rfl⟩; exact ⟨n, hn, rfl⟩

end Sys2Proof.Machine
end

