-- ==== Sys2Proof/Laws/Decode.lean ====
section
/-!
SUPPORT. The laws of the decoder's parts (spec/30_encoding.md): which mnemonic an opcode word
selects, and exactly when a name or a run of words is read.
-/

namespace Sys2Proof

open Machine (Err)

theorem op_mem_all (o : Op) : o ∈ Op.all := by cases o <;> decide

/-- The mnemonic selected has that opcode (R90). -/
theorem opOf_some {c : Cfg} {word : Nat} {o : Op} (h : opOf c word = some o) :
    c.opc.code o = word := by
  simpa using List.find?_some h

/-- An illegal opcode word selects nothing (R91). -/
theorem opOf_none_iff {c : Cfg} {word : Nat} :
    opOf c word = none ↔ ∀ o : Op, c.opc.code o ≠ word := by
  simp only [opOf, List.find?_eq_none, beq_iff_eq]
  exact ⟨fun h o => h o (op_mem_all o), fun h o _ => h o⟩

/-- In a legal configuration every mnemonic's opcode selects it (R5, R90). -/
theorem opOf_code {c : Cfg} (hc : c.Wf) (o : Op) : opOf c (c.opc.code o) = some o := by
  obtain ⟨-, -, -, -, -, -, -, hinj⟩ := hc
  cases hp : opOf c (c.opc.code o) with
  | none => exact absurd rfl (opOf_none_iff.1 hp o)
  | some p => rw [hinj p (op_mem_all p) o (op_mem_all o) (opOf_some hp)]

/-- HALT is tested first (R110), in any configuration. -/
theorem opOf_halt (c : Cfg) : opOf c c.opc.halt = some .halt := by
  simp [opOf, Op.all, Opc.code]

/-- `ReadName` (R115) answers a name exactly when the words are its characters and a terminating
zero, none of them zero, and no more than are allowed. -/
theorem readName_eq_ok {rd : Nat → Except Err Nat} {start room a : Nat} {name : List Nat} :
    readName rd start room a = .ok name ↔
      name.length ≤ room ∧ (∀ ch ∈ name, ch ≠ 0) ∧
      (∀ k (h : k < name.length), rd (a + k) = .ok name[k]) ∧ rd (a + name.length) = .ok 0 := by
  induction room generalizing a name with
  | zero =>
    simp only [readName, Machine.bind_eq_ok]
    constructor
    · rintro ⟨ch, hch, h⟩
      split at h
      · next h0 => cases h; subst h0; simpa using hch
      · cases h
    · rintro ⟨hlen, -, -, h0⟩
      obtain rfl : name = [] := List.length_eq_zero_iff.1 (by omega)
      exact ⟨0, by simpa using h0, by simp⟩
  | succ room ih =>
    simp only [readName, Machine.bind_eq_ok]
    constructor
    · rintro ⟨ch, hch, h⟩
      split at h
      · next h0 => cases h; subst h0; simpa using hch
      · next h0 =>
        obtain ⟨rest, hrest, h⟩ := Machine.bind_eq_ok.1 h
        cases h
        obtain ⟨h1, h2, h3, h4⟩ := ih.1 hrest
        refine ⟨by simpa using h1, by simpa [h0] using h2, ?_, ?_⟩
        · intro k hk
          cases k with
          | zero => simpa using hch
          | succ k =>
            have := h3 k (by simpa using hk)
            simpa [Nat.add_assoc, Nat.add_comm 1] using this
        · simpa [Nat.add_assoc, Nat.add_comm 1] using h4
    · rintro ⟨hlen, hne, hrd, h0⟩
      cases name with
      | nil => exact ⟨0, by simpa using h0, by simp⟩
      | cons ch rest =>
        refine ⟨ch, hrd 0 (Nat.succ_pos _), ?_⟩
        rw [if_neg (hne ch (List.mem_cons_self ..))]
        refine Machine.bind_eq_ok.2 ⟨rest, ih.2 ⟨by simpa using hlen, ?_, ?_, ?_⟩, rfl⟩
        · exact fun x hx => hne x (List.mem_cons_of_mem _ hx)
        · intro k hk
          have := hrd (k + 1) (by simpa using hk)
          simpa [Nat.add_assoc, Nat.add_comm 1] using this
        · simpa [Nat.add_assoc, Nat.add_comm 1] using h0

/-- A run of words is read exactly when each of them is (R191). -/
theorem readWords_eq_ok {rd : Nat → Except Err Nat} {n a : Nat} {ws : List Nat} :
    readWords rd n a = .ok ws ↔
      ws.length = n ∧ ∀ k (h : k < ws.length), rd (a + k) = .ok ws[k] := by
  induction n generalizing a ws with
  | zero =>
    simp only [readWords]
    constructor
    · intro h; cases h; simp
    · rintro ⟨h, -⟩; rw [List.length_eq_zero_iff.1 h]
  | succ n ih =>
    simp only [readWords, Machine.bind_eq_ok]
    constructor
    · rintro ⟨w, hw, rest, hrest, h⟩
      cases h
      obtain ⟨h1, h2⟩ := ih.1 hrest
      refine ⟨by simp [h1], ?_⟩
      intro k hk
      cases k with
      | zero => simpa using hw
      | succ k =>
        have := h2 k (by simpa using hk)
        simpa [Nat.add_assoc, Nat.add_comm 1] using this
    · rintro ⟨hlen, hrd⟩
      cases ws with
      | nil => simp at hlen
      | cons w rest =>
        refine ⟨w, hrd 0 (Nat.succ_pos _), rest, ih.2 ⟨by simpa using hlen, ?_⟩, rfl⟩
        intro k hk
        have := hrd (k + 1) (by simpa using hk)
        simpa [Nat.add_assoc, Nat.add_comm 1] using this

/-- An instruction is decoded exactly when its opcode word selects a mnemonic and the operands of
that mnemonic's format are read (R88, R113). -/
theorem decodeAt_eq_ok {c : Cfg} {rd : Nat → Except Err Nat} {a : Nat} {i : Instr} :
    decodeAt c rd a = .ok i ↔
      ∃ word o, rd a = .ok word ∧ opOf c word = some o ∧ decodeOperands c rd a o = .ok i := by
  simp only [decodeAt, Machine.bind_eq_ok]
  constructor
  · rintro ⟨word, hw, h⟩
    split at h
    · cases h
    · next o ho => exact ⟨word, o, hw, ho, h⟩
  · rintro ⟨word, o, hw, ho, h⟩
    exact ⟨word, hw, by rw [ho]; exact h⟩

end Sys2Proof
end

