-- ==== Sys2Proof/Laws/Exec.lean ====
section
/-!
SUPPORT. What an instruction and a step can do, said once: every instruction answers a next state,
which is a fault taken or the writes of its family; a step is that, or a fault taken while fetching.
-/

namespace Sys2Proof.Machine

/-- Everything an instruction can do to the state, by family. -/
theorem exec_cases {i : Instr} {s t : State} (h : exec i s = .next t) :
    (∃ e, t = takeFault e s) ∨
    (familyOf i = .halt ∧ t = setStatus .halted s) ∨
    (∃ d v p, familyOf i = .load ∧ t = setPc p (setReg d v s)) ∨
    (∃ v p, familyOf i = .store ∧ t = setPc p (writeAppend v s)) ∨
    (∃ d res p, familyOf i = .arith ∧ t = arithWrite d res p s) ∨
    (∃ b p, familyOf i = .compare ∧ t = setPc p (setCond b s)) ∨
    (∃ p, familyOf i = .jump ∧ t = setPc p s) ∨
    (∃ bs p, familyOf i = .output ∧ t = setPc p (emit bs s)) ∨
    (∃ name p q, familyOf i = .label ∧ t = setPc p (define q name s)) := by
  cases i
  case halt => cases h; exact .inr (.inl ⟨rfl, rfl⟩)
  all_goals
    rcases conclude_cases h with h | ⟨e, he, rfl⟩
    swap
    · exact .inl ⟨e, rfl⟩
    simp only [bind_eq_ok, arithRR_eq_ok, arithRI_eq_ok, compareRegs_eq_ok, jump_eq_ok] at h
    refine .inr (.inr ?_)
  case ld => obtain ⟨d, _, a, _, n, _, h⟩ := h; cases h; exact .inl ⟨_, _, _, rfl, rfl⟩
  case ldi => obtain ⟨d, _, n, _, h⟩ := h; cases h; exact .inl ⟨_, _, _, rfl, rfl⟩
  all_goals refine .inr ?_
  case st => obtain ⟨d, _, n, _, h⟩ := h; cases h; exact .inl ⟨_, _, rfl, rfl⟩
  all_goals refine .inr ?_
  case add | sub | mul | div =>
    obtain ⟨a, b, d, res, _, _, _, _, _, rfl⟩ := h
    exact .inl ⟨_, _, _, rfl, rfl⟩
  case addi | subi | muli | divi =>
    obtain ⟨a, d, res, _, _, _, _, rfl⟩ := h
    exact .inl ⟨_, _, _, rfl, rfl⟩
  all_goals refine .inr ?_
  case ceq | cgr | clo | cge | cle | cne =>
    obtain ⟨a, b, _, _, _, rfl⟩ := h
    exact .inl ⟨_, _, rfl, rfl⟩
  all_goals refine .inr ?_
  case jmp | jt | jf | jz | jnz | jn | jnn =>
    obtain ⟨_, a, _, rfl⟩ | ⟨_, _, rfl⟩ := h <;> exact .inl ⟨_, rfl, rfl⟩
  all_goals refine .inr ?_
  case putn => obtain ⟨r, _, n, _, h⟩ := h; cases h; exact .inl ⟨_, _, rfl, rfl⟩
  case puts => obtain ⟨n, _, h⟩ := h; cases h; exact .inl ⟨_, _, rfl, rfl⟩
  case flush => obtain ⟨n, _, h⟩ := h; cases h; exact .inl ⟨_, _, rfl, rfl⟩
  case lbl => obtain ⟨_, _, n, _, h⟩ := h; cases h; exact .inr ⟨_, _, _, rfl, rfl⟩

/-- No instruction faults the Lean step or is refused: each answers a next state. -/
theorem exec_answers_next (i : Instr) (s : State) : ∃ t, exec i s = .next t := by
  cases i
  case halt => exact ⟨_, rfl⟩
  all_goals exact conclude_next _ _

/-- Everything a step can do: it is the decoded instruction's, or a fault taken while fetching. -/
theorem step_cases {s t : State} (h : step s = .next t) :
    s.status = .running ∧
    ((∃ i, fetchInstr s = .ok i ∧ exec i s = .next t) ∨
     (∃ e, fetchInstr s = .error e ∧ t = takeFault e s)) := by
  unfold step at h
  split at h
  · next hs =>
    refine ⟨hs, ?_⟩
    split at h
    · next i hi => exact .inl ⟨i, hi, h⟩
    · next e he => cases h; exact .inr ⟨e, he, rfl⟩
  all_goals cases h

end Sys2Proof.Machine
end

