-- ==== Sys2Proof/Laws/PerInstr.lean ====
section
/-!
SUPPORT. Statements made of every instruction, one lemma a constructor. Family EncodeLength: an
instruction's words are as many as spec/30_encoding.md rule R82 says.
-/

namespace Sys2Proof.Laws.EncodeLength

/-- The words of `i` are as many as R82 gives its format, in every configuration. -/
def Statement (i : Instr) : Prop := ∀ c : Cfg, (encode c i).length = instrLength i

theorem halt : Statement .halt := fun _ => rfl
theorem ld (rd off : Nat) : Statement (.ld rd off) := fun _ => rfl
theorem ldi (rd imm : Nat) : Statement (.ldi rd imm) := fun _ => rfl
theorem st (rs : Nat) : Statement (.st rs) := fun _ => rfl
theorem add (ra rb rd : Nat) : Statement (.add ra rb rd) := fun _ => rfl
theorem addi (ra imm rd : Nat) : Statement (.addi ra imm rd) := fun _ => rfl
theorem sub (ra rb rd : Nat) : Statement (.sub ra rb rd) := fun _ => rfl
theorem subi (ra imm rd : Nat) : Statement (.subi ra imm rd) := fun _ => rfl
theorem mul (ra rb rd : Nat) : Statement (.mul ra rb rd) := fun _ => rfl
theorem muli (ra imm rd : Nat) : Statement (.muli ra imm rd) := fun _ => rfl
theorem div (ra rb rd : Nat) : Statement (.div ra rb rd) := fun _ => rfl
theorem divi (ra imm rd : Nat) : Statement (.divi ra imm rd) := fun _ => rfl
theorem ceq (ra rb : Nat) : Statement (.ceq ra rb) := fun _ => rfl
theorem cgr (ra rb : Nat) : Statement (.cgr ra rb) := fun _ => rfl
theorem clo (ra rb : Nat) : Statement (.clo ra rb) := fun _ => rfl
theorem cge (ra rb : Nat) : Statement (.cge ra rb) := fun _ => rfl
theorem cle (ra rb : Nat) : Statement (.cle ra rb) := fun _ => rfl
theorem cne (ra rb : Nat) : Statement (.cne ra rb) := fun _ => rfl

/-- The length of an opcode, a name and its terminator. -/
theorem named_length (op : Nat) (name : List Nat) :
    (op :: (name ++ [0])).length = 2 + name.length := by
  simp; omega

theorem jmp (name : List Nat) : Statement (.jmp name) := fun _ => named_length _ name
theorem jt (name : List Nat) : Statement (.jt name) := fun _ => named_length _ name
theorem jf (name : List Nat) : Statement (.jf name) := fun _ => named_length _ name
theorem jz (name : List Nat) : Statement (.jz name) := fun _ => named_length _ name
theorem jnz (name : List Nat) : Statement (.jnz name) := fun _ => named_length _ name
theorem jn (name : List Nat) : Statement (.jn name) := fun _ => named_length _ name
theorem jnn (name : List Nat) : Statement (.jnn name) := fun _ => named_length _ name
theorem putn (rs : Nat) : Statement (.putn rs) := fun _ => rfl
theorem puts (chars : List Nat) : Statement (.puts chars) := fun _ => by
  simp [encode, instrLength]; omega
theorem flush : Statement .flush := fun _ => rfl
theorem lbl (name : List Nat) : Statement (.lbl name) := fun _ => named_length _ name

end Sys2Proof.Laws.EncodeLength
end

