-- ==== Sys2Proof/Tests/Slice0.lean ====
section
/-!
SUPPORT. The model's own tests: well-formedness, decoding of words written out from
spec/30_encoding.md, one-step vectors of spec/95_test_vectors.md, and for every statement with
hypotheses a concrete state and operands that meet them.
-/

namespace Sys2Proof.Tests

open Sys2Proof Sys2Proof.Machine

/-- A running machine of configuration `c` with `words` at `pc`, nothing else written. -/
def coreAt (c : Cfg) (pc : Nat) (words : List Nat) : State :=
  setStatus .running (setPc pc (memWriteList pc words (State.resetOf c 0)))

/-- The next state, where there is one. -/
def nextOf (o : Host.Outcome State Fault Refusal) : Option State :=
  match o with
  | .next s => some s
  | .fault _ => none
  | .refused _ => none

/-- One step answers a next state of which `p` holds. -/
def ran (s : State) (p : State → Bool) : Bool := (nextOf (step s)).any p

/-- One step answers the state with the fault `e` taken and nothing else changed. -/
def faults (s : State) (e : Err) : Bool :=
  decide (nextOf (step s) = some { s with status := .faulted, err := some e })

/-- A small machine: CFG_TINY with `words` at `pc`. -/
abbrev tinyAt (pc : Nat) (words : List Nat) : State := coreAt Cfg.tiny pc words

/-- The reference machine with `words` at CODE_START. -/
abbrev refCore (words : List Nat) : State := coreAt Cfg.ref 0x8000 words

/-! ## Well-formedness -/

/-- R7. -/
theorem test_configurations_legal : Cfg.ref.Wf ∧ Cfg.tiny.Wf := by decide
/-- Every operand is a word (R80): 255 is the largest of CFG_TINY. -/
theorem test_well_formed_registers_and_words :
    (Instr.add 255 0 255).wellFormed Cfg.tiny = true ∧
    (Instr.add 256 0 0).wellFormed Cfg.tiny = false ∧
    (Instr.add 0 256 0).wellFormed Cfg.tiny = false ∧
    (Instr.add 0 0 256).wellFormed Cfg.tiny = false ∧
    (Instr.addi 0 256 0).wellFormed Cfg.tiny = false ∧
    (Instr.ceq 0 256).wellFormed Cfg.tiny = false ∧
    (Instr.ceq 256 0).wellFormed Cfg.tiny = false ∧
    (Instr.ld 256 0).wellFormed Cfg.tiny = false ∧
    (Instr.ldi 0 256).wellFormed Cfg.tiny = false ∧
    (Instr.st 256).wellFormed Cfg.tiny = false ∧
    (Instr.putn 256).wellFormed Cfg.tiny = false := by decide
/-- A name has at most NAME_MAX = 3 characters, none of them 0, each a word (R86). -/
theorem test_well_formed_names :
    (Instr.lbl [97, 98, 99]).wellFormed Cfg.tiny = true ∧
    (Instr.lbl []).wellFormed Cfg.tiny = true ∧
    (Instr.lbl [97, 98, 99, 100]).wellFormed Cfg.tiny = false ∧
    (Instr.jmp [97, 0]).wellFormed Cfg.tiny = false ∧
    (Instr.jt [256]).wellFormed Cfg.tiny = false := by decide
/-- A PUTS cell is a word, a zero too (R87). -/
theorem test_well_formed_runs :
    (Instr.puts [0, 255]).wellFormed Cfg.tiny = true ∧
    (Instr.puts [256]).wellFormed Cfg.tiny = false := by decide
/-- A PUTS count is a word (R87). -/
theorem test_well_formed_run_too_long (chars : List Nat) (h : chars.length = 256) :
    (Instr.puts chars).wellFormed Cfg.tiny = false :=
  decide_eq_false fun hc => absurd hc.1 (by rw [h]; decide)

/-! ## Decoding: words written out from the tables of R81 and R90 -/

theorem test_decode_halt : decodeWords Cfg.ref [0] = .ok .halt := rfl
theorem test_decode_ld : decodeWords Cfg.ref [1, 3, 32767] = .ok (.ld 3 32767) := rfl
theorem test_decode_ldi : decodeWords Cfg.ref [2, 7, 65535] = .ok (.ldi 7 65535) := rfl
theorem test_decode_st : decodeWords Cfg.ref [3, 2] = .ok (.st 2) := rfl
theorem test_decode_add : decodeWords Cfg.ref [4, 5, 6, 7] = .ok (.add 5 6 7) := rfl
theorem test_decode_sub : decodeWords Cfg.ref [6, 5, 6, 7] = .ok (.sub 5 6 7) := rfl
theorem test_decode_mul : decodeWords Cfg.ref [8, 5, 6, 7] = .ok (.mul 5 6 7) := rfl
theorem test_decode_div : decodeWords Cfg.ref [10, 5, 6, 7] = .ok (.div 5 6 7) := rfl
theorem test_decode_addi : decodeWords Cfg.ref [5, 5, 600, 7] = .ok (.addi 5 600 7) := rfl
theorem test_decode_subi : decodeWords Cfg.ref [7, 5, 600, 7] = .ok (.subi 5 600 7) := rfl
theorem test_decode_muli : decodeWords Cfg.ref [9, 5, 600, 7] = .ok (.muli 5 600 7) := rfl
theorem test_decode_divi : decodeWords Cfg.ref [11, 5, 600, 7] = .ok (.divi 5 600 7) := rfl
theorem test_decode_ceq : decodeWords Cfg.ref [12, 6, 7] = .ok (.ceq 6 7) := rfl
theorem test_decode_cgr : decodeWords Cfg.ref [13, 6, 7] = .ok (.cgr 6 7) := rfl
theorem test_decode_clo : decodeWords Cfg.ref [14, 6, 7] = .ok (.clo 6 7) := rfl
theorem test_decode_cge : decodeWords Cfg.ref [15, 6, 7] = .ok (.cge 6 7) := rfl
theorem test_decode_cle : decodeWords Cfg.ref [16, 6, 7] = .ok (.cle 6 7) := rfl
theorem test_decode_cne : decodeWords Cfg.ref [17, 6, 7] = .ok (.cne 6 7) := rfl
theorem test_decode_jmp : decodeWords Cfg.ref [18, 97, 98, 0] = .ok (.jmp [97, 98]) := rfl
theorem test_decode_jt : decodeWords Cfg.ref [19, 97, 98, 0] = .ok (.jt [97, 98]) := rfl
theorem test_decode_jf : decodeWords Cfg.ref [20, 97, 98, 0] = .ok (.jf [97, 98]) := rfl
theorem test_decode_jz : decodeWords Cfg.ref [21, 97, 98, 0] = .ok (.jz [97, 98]) := rfl
theorem test_decode_jnz : decodeWords Cfg.ref [22, 97, 98, 0] = .ok (.jnz [97, 98]) := rfl
theorem test_decode_jn : decodeWords Cfg.ref [23, 97, 98, 0] = .ok (.jn [97, 98]) := rfl
theorem test_decode_jnn : decodeWords Cfg.ref [24, 97, 98, 0] = .ok (.jnn [97, 98]) := rfl
theorem test_decode_putn : decodeWords Cfg.ref [25, 4] = .ok (.putn 4) := rfl
theorem test_decode_puts : decodeWords Cfg.ref [26, 3, 321, 0, 10] = .ok (.puts [321, 0, 10]) := rfl
theorem test_decode_flush : decodeWords Cfg.ref [27] = .ok .flush := rfl
theorem test_decode_lbl :
    decodeWords Cfg.ref [28, 108, 111, 111, 112, 0] = .ok (.lbl [108, 111, 111, 112]) := rfl
/-- V-ILL-1: no operand is read. -/
theorem test_decode_illegal :
    decodeWords Cfg.ref [29, 0, 0] = .error (.unrecognizedOperation 29) := rfl
/-- V-LBL-4: one character more than NAME_MAX. -/
theorem test_decode_name_too_long :
    decodeWords Cfg.tiny [28, 97, 98, 99, 100, 0] = .error (.nameTooLong 1) := rfl
/-- An operand word, a name's terminator and a PUTS cell that are not there. -/
theorem test_decode_words_missing :
    decodeWords Cfg.tiny [2, 0] = .error (.outOfBounds 2) ∧
    decodeWords Cfg.tiny [18, 97, 98] = .error (.outOfBounds 3) ∧
    decodeWords Cfg.tiny [26, 5, 65, 66] = .error (.outOfBounds 4) := ⟨rfl, rfl, rfl⟩
/-- The rows of spec/opcode_table.json, their operand words zero. -/
theorem test_table_words_short :
    (List.range 12).map (decodeTableWord 16) =
      [some .halt, some (.ld 0 0), some (.ldi 0 0), some (.st 0), some (.add 0 0 0),
       some (.addi 0 0 0), some (.sub 0 0 0), some (.subi 0 0 0), some (.mul 0 0 0),
       some (.muli 0 0 0), some (.div 0 0 0), some (.divi 0 0 0)] := by decide
/-- The rows 12 to 28, and 29, which is no row. -/
theorem test_table_words_rest :
    (List.range 18).map (fun k => decodeTableWord 16 (12 + k)) =
      [some (.ceq 0 0), some (.cgr 0 0), some (.clo 0 0), some (.cge 0 0), some (.cle 0 0),
       some (.cne 0 0), some (.jmp []), some (.jt []), some (.jf []), some (.jz []),
       some (.jnz []), some (.jn []), some (.jnn []), some (.putn 0), some (.puts []),
       some .flush, some (.lbl []), none] := by decide
/-- Each row's word, placed where the next instruction is fetched, runs. -/
theorem test_table_words_run :
    (List.range 29).all (fun k =>
      (nextOf (step (State.reset.withFetchWord 16 k))).isSome) = true := by decide
/-- Bits above the first word are the later words. -/
theorem test_table_word_with_operands :
    decodeTableWord 48 (2 + 7 * 2 ^ 16 + 258 * 2 ^ 32) = some (.ldi 7 258) ∧
    ran (State.reset.withFetchWord 48 (2 + 7 * 2 ^ 16 + 258 * 2 ^ 32))
      (fun t => t.regs.r7 == 258 && t.pc == 0x8003) = true := by decide

/-! ## One step: vectors of spec/95_test_vectors.md -/

/-- V-HALT-2: in the last word. -/
theorem test_halt :
    ran (tinyAt 63 [0])
      (fun t => t.status == .halted && t.pc == 63) = true := by decide
/-- V-LD-6. -/
theorem test_ld :
    ran { tinyAt 32 [1, 0, 31] with mem := [(31, 9), (32, 1), (33, 0), (34, 31)] }
      (fun t => t.regs.r0 == 9 && t.pc == 35) = true := by decide
/-- V-LD-4. -/
theorem test_ld_negative :
    faults (refCore [1, 3, 65535])
      (.offsetOutOfBounds (-1)) = true := by decide
/-- V-LDI-2. -/
theorem test_ldi :
    ran { refCore [2, 0, 0] with regs := ⟨5, 0, 0, 0, 0, 0, 0, 0⟩, flag := .neg }
      (fun t => t.regs.r0 == 0 && t.flag == .neg && t.pc == 0x8003) = true := by decide
/-- V-END-2. -/
theorem test_ldi_at_the_end :
    faults (tinyAt 61 [2, 0, 9])
      (.outOfBounds 64) = true := by decide
/-- V-ST-2. -/
theorem test_st :
    ran { tinyAt 32 [3, 1] with regs := ⟨0, 171, 0, 0, 0, 0, 0, 0⟩, wcur := 30 }
      (fun t => memRead t 30 == 0xAB && t.wcur == 31 && t.pc == 34) = true := by decide
/-- V-ST-3. -/
theorem test_st_saturated :
    ran { tinyAt 32 [3, 1] with regs := ⟨0, 205, 0, 0, 0, 0, 0, 0⟩, wcur := 31 }
      (fun t => memRead t 31 == 0xCD && t.wcur == 31 && t.pc == 34) = true := by decide
/-- V-ADD-2. -/
theorem test_add_wraps :
    ran { refCore [4, 0, 1, 2] with regs := ⟨65535, 1, 7, 0, 0, 0, 0, 0⟩, flag := .zero }
      (fun t => t.regs.r2 == 0 && t.flag == .none && t.pc == 0x8004) = true := by decide
/-- V-ADD-4. -/
theorem test_add_same_register :
    ran { refCore [4, 1, 1, 1] with regs := ⟨0, 32768, 0, 0, 0, 0, 0, 0⟩ }
      (fun t => t.regs.r1 == 0 && t.flag == .none && t.pc == 0x8004) = true := by decide
/-- V-ADDI-3. -/
theorem test_addi_unsigned :
    ran { refCore [5, 0, 65535, 0] with regs := ⟨2, 0, 0, 0, 0, 0, 0, 0⟩ }
      (fun t => t.regs.r0 == 1 && t.flag == .none && t.pc == 0x8004) = true := by decide
/-- V-ADDI-2. -/
theorem test_addi_zero :
    ran { refCore [5, 3, 0, 4] with regs := ⟨0, 0, 0, 0, 5, 0, 0, 0⟩, flag := .neg }
      (fun t => t.regs.r4 == 0 && t.flag == .zero && t.pc == 0x8004) = true := by decide
/-- V-SUB-1. -/
theorem test_sub_negative :
    ran { refCore [6, 0, 1, 2] with regs := ⟨3, 5, 0, 0, 0, 0, 0, 0⟩ }
      (fun t => t.regs.r2 == 0xFFFE && t.flag == .neg && t.pc == 0x8004) = true := by decide
/-- V-SUB-5. -/
theorem test_sub_small_yet_negative :
    ran { refCore [6, 0, 1, 2] with regs := ⟨0, 65535, 0, 0, 0, 0, 0, 0⟩ }
      (fun t => t.regs.r2 == 1 && t.flag == .neg && t.pc == 0x8004) = true := by decide
/-- V-SUBI-1. -/
theorem test_subi_zero :
    ran { refCore [7, 0, 1, 0] with regs := ⟨1, 0, 0, 0, 0, 0, 0, 0⟩ }
      (fun t => t.regs.r0 == 0 && t.flag == .zero && t.pc == 0x8004) = true := by decide
/-- V-SUBI-2. -/
theorem test_subi_negative :
    ran { refCore [7, 0, 1, 0] with regs := ⟨0, 0, 0, 0, 0, 0, 0, 0⟩, flag := .zero }
      (fun t => t.regs.r0 == 0xFFFF && t.flag == .neg && t.pc == 0x8004) = true := by decide
/-- V-MUL-2. -/
theorem test_mul_wraps :
    ran { refCore [8, 0, 1, 2] with regs := ⟨256, 256, 5, 0, 0, 0, 0, 0⟩ }
      (fun t => t.regs.r2 == 0 && t.flag == .none && t.pc == 0x8004) = true := by decide
/-- V-MUL-4. -/
theorem test_mul_zero :
    ran { refCore [8, 0, 1, 2] with regs := ⟨65535, 0, 5, 0, 0, 0, 0, 0⟩ }
      (fun t => t.regs.r2 == 0 && t.flag == .zero && t.pc == 0x8004) = true := by decide
/-- V-MULI-1. -/
theorem test_muli :
    ran { refCore [9, 3, 10, 3] with regs := ⟨0, 0, 0, 10, 0, 0, 0, 0⟩ }
      (fun t => t.regs.r3 == 100 && t.flag == .none && t.pc == 0x8004) = true := by decide
/-- V-DIV-1. -/
theorem test_div :
    ran { refCore [10, 0, 1, 2] with regs := ⟨7, 2, 0, 0, 0, 0, 0, 0⟩ }
      (fun t => t.regs.r2 == 3 && t.flag == .none && t.pc == 0x8004) = true := by decide
/-- V-DIV-2. -/
theorem test_div_by_zero :
    faults { refCore [10, 0, 1, 2] with regs := ⟨7, 0, 99, 0, 0, 0, 0, 0⟩, flag := .neg }
      (.divisionByZero) = true := by decide
/-- V-DIVI-4. -/
theorem test_divi :
    ran { refCore [11, 0, 10, 0] with regs := ⟨65535, 0, 0, 0, 0, 0, 0, 0⟩ }
      (fun t => t.regs.r0 == 6553 && t.flag == .none && t.pc == 0x8004) = true := by decide
/-- V-DIVI-3. -/
theorem test_divi_register_first :
    faults { refCore [11, 0, 0, 8] with regs := ⟨1, 0, 0, 0, 0, 0, 0, 0⟩ }
      (.registerOutOfBounds 8) = true := by decide
/-- The condition a comparison of R0 and R1 leaves, as its numeral, for the five rows of 2.3. -/
def condsOf (op : Nat) : List (Option Nat) :=
  [(5, 3), (3, 3), (3, 5), (0xFFFF, 1), (0, 0)].map (fun p =>
    (nextOf (step { refCore [op, 0, 1] with regs := ⟨p.1, p.2, 0, 0, 0, 0, 0, 0⟩ })).map
      (fun t => condNumeral t.cond))

/-- The table of 2.3, column CEQ. -/
theorem test_ceq_conditions : condsOf 12 = [some 0, some 1, some 0, some 0, some 1] := by decide
/-- The table of 2.3, column CGR. -/
theorem test_cgr_conditions : condsOf 13 = [some 1, some 0, some 0, some 1, some 0] := by decide
/-- The table of 2.3, column CLO. -/
theorem test_clo_conditions : condsOf 14 = [some 0, some 0, some 1, some 0, some 0] := by decide
/-- The table of 2.3, column CGE. -/
theorem test_cge_conditions : condsOf 15 = [some 1, some 1, some 0, some 1, some 1] := by decide
/-- The table of 2.3, column CLE. -/
theorem test_cle_conditions : condsOf 16 = [some 0, some 1, some 1, some 0, some 1] := by decide
/-- The table of 2.3, column CNE. -/
theorem test_cne_conditions : condsOf 17 = [some 1, some 0, some 1, some 1, some 0] := by decide

/-- Where a jump to "a" at 0x8010 leads, with "a" at 0x8003, for the five columns of 2.4: `cond` 0
and 1 (`flag` 0), then `flag` 0, 1 and 2 (`cond` 0). -/
def targetsOf (op : Nat) : List (Option Nat) :=
  [(false, Flag.none), (true, .none), (false, .none), (false, .zero), (false, .neg)].map (fun p =>
    (nextOf (step { coreAt Cfg.ref 0x8010 [op, 97, 0] with
      labels := [⟨0x8003, [97]⟩], cond := p.1, flag := p.2 })).map State.pc)

/-- The tables of 2.4, row JMP. -/
theorem test_jmp_targets :
    targetsOf 18 =
      [some 0x8003, some 0x8003, some 0x8003, some 0x8003, some 0x8003] := by decide
/-- The tables of 2.4, row JT. -/
theorem test_jt_targets :
    targetsOf 19 =
      [some 0x8013, some 0x8003, some 0x8013, some 0x8013, some 0x8013] := by decide
/-- The tables of 2.4, row JF. -/
theorem test_jf_targets :
    targetsOf 20 =
      [some 0x8003, some 0x8013, some 0x8003, some 0x8003, some 0x8003] := by decide
/-- The tables of 2.4, row JZ. -/
theorem test_jz_targets :
    targetsOf 21 =
      [some 0x8013, some 0x8013, some 0x8013, some 0x8003, some 0x8013] := by decide
/-- The tables of 2.4, row JNZ. -/
theorem test_jnz_targets :
    targetsOf 22 =
      [some 0x8003, some 0x8003, some 0x8003, some 0x8013, some 0x8003] := by decide
/-- The tables of 2.4, row JN. -/
theorem test_jn_targets :
    targetsOf 23 =
      [some 0x8013, some 0x8013, some 0x8013, some 0x8013, some 0x8003] := by decide
/-- The tables of 2.4, row JNN. -/
theorem test_jnn_targets :
    targetsOf 24 =
      [some 0x8003, some 0x8003, some 0x8003, some 0x8003, some 0x8013] := by decide
/-- V-J-3. -/
theorem test_jmp_whole_name :
    faults { coreAt Cfg.ref 0x8010 [18, 97, 0] with labels := [⟨0x8004, [97, 98]⟩] }
      (.undefinedLabel [97]) = true := by decide
/-- V-J-9. -/
theorem test_jt_at_the_end_taken :
    ran { tinyAt 61 [19, 97, 0] with cond := true, labels := [⟨35, [97]⟩] }
      (fun t => t.pc == 35 && t.status == .running) = true := by decide
/-- V-PUTN-3. -/
theorem test_putn :
    ran { refCore [25, 1] with regs := ⟨0, 65535, 0, 0, 0, 0, 0, 0⟩ }
      (fun t => t.out == [0x36, 0x35, 0x35, 0x33, 0x35] && t.pc == 0x8002) = true := by decide
/-- V-PUTN-2. -/
theorem test_putn_zero :
    ran (refCore [25, 0])
      (fun t => t.out == [0x30]) = true := by decide
/-- V-PUTS-3. -/
theorem test_puts :
    ran (refCore [26, 3, 321, 0, 10])
      (fun t => t.out == [0x41, 0x00, 0x0A] && t.pc == 0x8005) = true := by decide
/-- V-PUTS-4. -/
theorem test_puts_outside :
    faults (tinyAt 60 [26, 5, 65, 66])
      (.outOfBounds 64) = true := by decide
/-- V-FLUSH-1. -/
theorem test_flush :
    ran { coreAt Cfg.ref 0x800C [27] with out := [0x38] }
      (fun t => t.out == [0x38, 0x0A] && t.pc == 0x800D) = true := by decide
/-- V-LBL-1. -/
theorem test_lbl :
    ran (refCore [28, 108, 111, 111, 112, 0])
      (fun t => t.labels == [⟨0x8006, [108, 111, 111, 112]⟩] && t.pc == 0x8006) = true :=
  by decide
/-- V-LBL-8. -/
theorem test_lbl_full_table_first :
    faults { tinyAt 61 [28, 97, 0] with labels := [⟨35, [97]⟩, ⟨38, [98]⟩] }
      (.tooManyLabels) = true := by decide

/-! ## Witnesses: each statement with hypotheses has states and operands that meet them -/

theorem test_meets_decode_of_encode :
    Cfg.tiny.Wf ∧ (Instr.ldi 255 255).wellFormed Cfg.tiny = true ∧
    (Instr.divi 255 255 255).wellFormed Cfg.tiny = true ∧ Instr.halt.wellFormed Cfg.tiny = true ∧
    (Instr.jnn [1, 255, 97]).wellFormed Cfg.tiny = true ∧
    (Instr.puts [0, 255]).wellFormed Cfg.tiny = true := by decide
theorem test_meets_decoded_words :
    decodeAt Cfg.tiny (listWord [2, 7, 255]) 0 = .ok (.ldi 7 255) ∧
    decodeAt Cfg.tiny (listWord [9, 18, 1, 2, 3, 0]) 1 = .ok (.jmp [1, 2, 3]) ∧
    decodeAt Cfg.tiny (listWord [26, 1, 0]) 0 = .ok (.puts [0]) := ⟨rfl, rfl, rfl⟩
theorem test_meets_decoded_instruction :
    (∀ b v, (fun a : Nat => (Except.ok (if a = 0 then 2 else 255) : Except Err Nat)) b = .ok v →
        IsWord Cfg.tiny.w v) ∧
    decodeAt Cfg.tiny (fun a => .ok (if a = 0 then 2 else 255)) 0 = .ok (.ldi 255 255) := by
  refine ⟨fun b v h => ?_, rfl⟩
  cases h
  show (if b = 0 then 2 else 255) < 2 ^ 8
  split <;> decide
theorem test_meets_step_runs_decoded :
    (tinyAt 61 [2, 0, 9]).status = .running ∧
    decodeAt Cfg.tiny (fetch (tinyAt 61 [2, 0, 9])) 61 = .ok (.ldi 0 9) := ⟨rfl, rfl⟩
/-- With the words up to the last cell of memory. -/
theorem test_meets_step_runs_encoded :
    Cfg.tiny.Wf ∧ (tinyAt 61 [28, 97, 0]).status = .running ∧
    (Instr.lbl [97]).wellFormed Cfg.tiny = true ∧
    61 + (encode Cfg.tiny (.lbl [97])).length ≤ Cfg.tiny.memoryMax ∧
    ∀ (k : Nat) (h : k < (encode Cfg.tiny (.lbl [97])).length),
      memRead (tinyAt 61 [28, 97, 0]) (61 + k) = (encode Cfg.tiny (.lbl [97]))[k] := by decide
/-- Both clauses, at the last cell of memory. -/
theorem test_meets_step_of_a_running_core :
    ((tinyAt 63 [0]).status = .running ∧ 63 < Cfg.tiny.memoryMax ∧
      memRead (tinyAt 63 [0]) 63 = Cfg.tiny.opc.halt) ∧
    ((tinyAt 63 [27]).status = .running ∧ memRead (tinyAt 63 [27]) 63 ≠ Cfg.tiny.opc.halt) :=
  by decide
theorem test_meets_no_step_after_the_end :
    (setStatus .halted State.reset).status = .halted ∧
    (takeFault .divisionByZero State.reset).status = .faulted ∧ HostOp.start ≠ .reset :=
  by decide
theorem test_meets_no_step_before_start :
    State.reset.status = .idle ∧ (setStatus .loaded State.reset).status = .loaded := by decide
/-- 29 is the smallest illegal opcode. -/
theorem test_meets_illegal_opcode :
    (tinyAt 63 [29]).status = .running ∧ (tinyAt 63 [29]).pc < Cfg.tiny.memoryMax ∧
    ∀ o ∈ Op.all, Cfg.tiny.opc.code o ≠ memRead (tinyAt 63 [29]) 63 := by decide
/-- The premises of the statement about LDI at the pc. -/
abbrev LdiThere (s : State) : Prop :=
  s.cfg.Wf ∧ s.status = .running ∧ s.pc < s.cfg.memoryMax ∧ memRead s s.pc = s.cfg.opc.ldi

/-- A witness for each branch at its boundary. -/
theorem test_meets_ldi_at_the_pc :
    LdiThere (tinyAt 63 [2]) ∧ LdiThere (tinyAt 62 [2, 0]) ∧
    (LdiThere (tinyAt 61 [2, 7, 9]) ∧ memRead (tinyAt 61 [2, 7, 9]) 62 < 8 ∧
      Cfg.tiny.memoryMax ≤ 61 + 3) ∧
    (LdiThere (tinyAt 60 [2, 7, 9]) ∧ ¬ Cfg.tiny.memoryMax ≤ 60 + 3) ∧
    (LdiThere (tinyAt 61 [2, 8, 9]) ∧ ¬ memRead (tinyAt 61 [2, 8, 9]) 62 < 8) :=
  ⟨by decide, by decide, by decide, by decide, by decide⟩
/-- The premises of the statement about ST at the pc. -/
abbrev StThere (s : State) : Prop :=
  s.cfg.Wf ∧ s.status = .running ∧ s.pc < s.cfg.memoryMax ∧ s.wcur < s.cfg.dataEnd ∧
  memRead s s.pc = s.cfg.opc.st

/-- A witness for each clause at its boundary. -/
theorem test_meets_st_at_the_pc :
    StThere (tinyAt 63 [3]) ∧
    (StThere (tinyAt 62 [3, 8]) ∧ 7 < memRead (tinyAt 62 [3, 8]) 63) ∧
    (StThere (tinyAt 62 [3, 7]) ∧ memRead (tinyAt 62 [3, 7]) 63 < 8 ∧
      Cfg.tiny.memoryMax ≤ 62 + 2) ∧
    (StThere { tinyAt 61 [3, 7] with wcur := 31 } ∧ 61 + 2 < Cfg.tiny.memoryMax) :=
  ⟨by decide, by decide, by decide, by decide⟩
theorem test_meets_missing_operand_word :
    (Cfg.tiny.Wf ∧ (tinyAt 61 [4, 0, 0]).status = .running ∧
      memRead (tinyAt 61 [4, 0, 0]) 61 = Cfg.tiny.opc.code .add ∧ fixedOperands .add = some 3 ∧
      Cfg.tiny.memoryMax ≤ 61 + 3) ∧
    (memRead (tinyAt 63 [3]) 63 = Cfg.tiny.opc.code .st ∧ fixedOperands .st = some 1 ∧
      Cfg.tiny.memoryMax ≤ 63 + 1) := by decide
/-- The first clause: the fourth character is the last word of memory. -/
theorem test_meets_name_too_long :
    Cfg.tiny.Wf ∧ (tinyAt 59 [28, 1, 2, 3, 4]).status = .running ∧
    memRead (tinyAt 59 [28, 1, 2, 3, 4]) 59 = Cfg.tiny.opc.code .lbl ∧ isNamed .lbl = true ∧
    59 + 1 + Cfg.tiny.nameMax < Cfg.tiny.memoryMax ∧
    ∀ k, k ≤ Cfg.tiny.nameMax → memRead (tinyAt 59 [28, 1, 2, 3, 4]) (59 + 1 + k) ≠ 0 := by
  refine ⟨by decide, by decide, by decide, by decide, by decide, fun k hk => ?_⟩
  have : k < 4 := Nat.lt_succ_of_le hk
  interval_cases k <;> decide
/-- The second clause: three characters, then the end of memory. -/
theorem test_meets_name_unterminated :
    Cfg.tiny.Wf ∧ (tinyAt 60 [18, 1, 2, 3]).status = .running ∧
    memRead (tinyAt 60 [18, 1, 2, 3]) 60 = Cfg.tiny.opc.code .jmp ∧ isNamed .jmp = true ∧
    Cfg.tiny.memoryMax ≤ 60 + 1 + Cfg.tiny.nameMax ∧
    ∀ a, 60 < a → a < Cfg.tiny.memoryMax → memRead (tinyAt 60 [18, 1, 2, 3]) a ≠ 0 := by
  refine ⟨by decide, by decide, by decide, by decide, by decide, fun a h1 h2 => ?_⟩
  have : a < 64 := h2
  interval_cases a <;> decide
/-- The premises of the statement about PUTS runs, but for the words that are missing. -/
abbrev PutsThere (s : State) : Prop :=
  s.cfg.Wf ∧ s.status = .running ∧ s.pc < s.cfg.memoryMax ∧ memRead s s.pc = s.cfg.opc.puts

/-- The count word missing, all of the run, and its last cell. -/
theorem test_meets_puts_run_outside :
    (PutsThere (tinyAt 63 [26]) ∧ Cfg.tiny.memoryMax ≤ 63 + 1) ∧
    (PutsThere (tinyAt 62 [26, 1]) ∧
      Cfg.tiny.memoryMax < 62 + 2 + memRead (tinyAt 62 [26, 1]) 63) ∧
    (PutsThere (tinyAt 61 [26, 2, 65]) ∧
      Cfg.tiny.memoryMax < 61 + 2 + memRead (tinyAt 61 [26, 2, 65]) 62) :=
  ⟨by decide, by decide, by decide⟩
theorem test_meets_fault_has_no_other_effect :
    step (tinyAt 63 [29]) = .next (takeFault (.unrecognizedOperation 29) (tinyAt 63 [29])) ∧
    (takeFault (.unrecognizedOperation 29) (tinyAt 63 [29])).status = .faulted := ⟨rfl, rfl⟩
theorem test_meets_order_of_checks :
    raisedFault (tinyAt 63 []) (.divi 0 0 8) = some (.registerOutOfBounds 8) ∧
    raisedFault (tinyAt 63 []) (.divi 0 0 7) = some .divisionByZero ∧
    raisedFault (tinyAt 60 []) (.divi 0 1 7) = some (.outOfBounds 64) ∧
    raisedFault (tinyAt 60 []) (.jmp [97]) = some (.undefinedLabel [97]) ∧
    raisedFault (tinyAt 61 []) (.jt [97]) = some (.outOfBounds 64) ∧
    raisedFault (tinyAt 59 []) (.divi 0 1 7) = none ∧
    raisedFault (tinyAt 63 []) .halt = none := by decide
/-- The first and the last user-data cell. -/
theorem test_meets_ld_inside :
    Cfg.tiny.Wf ∧ 0 < Cfg.tiny.dataEnd ∧ 31 < Cfg.tiny.dataEnd ∧
    (tinyAt 60 []).pc + 3 < (tinyAt 60 []).cfg.memoryMax := by decide
/-- DATA_END, the most negative offset, and -1. -/
theorem test_meets_ld_outside :
    Cfg.tiny.Wf ∧ (IsWord Cfg.tiny.w 32 ∧ Cfg.tiny.dataEnd ≤ 32 ∧ 32 < 2 ^ (Cfg.tiny.w - 1)) ∧
    (IsWord Cfg.tiny.w 128 ∧ Cfg.tiny.dataEnd ≤ 128 ∧ ¬ 128 < 2 ^ (Cfg.tiny.w - 1)) ∧
    (IsWord Cfg.tiny.w 255 ∧ Cfg.tiny.dataEnd ≤ 255) := by decide
theorem test_meets_ldi_inside : (tinyAt 60 []).pc + 3 < (tinyAt 60 []).cfg.memoryMax := by decide
/-- The two cursors where the clauses meet. -/
theorem test_meets_st_inside :
    (tinyAt 61 []).pc + 2 < (tinyAt 61 []).cfg.memoryMax ∧
    30 < Cfg.tiny.dataEnd - 1 ∧ ¬ 31 < Cfg.tiny.dataEnd - 1 := by decide
/-- The premises of the sums, the differences and the products. -/
theorem test_meets_arithmetic_inside :
    RegsOk { tinyAt 59 [] with regs := ⟨255, 1, 0, 0, 0, 0, 0, 0⟩ } ∧ IsWord Cfg.tiny.w 255 ∧
    (tinyAt 59 []).pc + 4 < (tinyAt 59 []).cfg.memoryMax := by decide
theorem test_meets_division :
    RegsOk { tinyAt 59 [] with regs := ⟨255, 1, 0, 0, 0, 0, 0, 0⟩ } ∧
    (tinyAt 59 []).pc + 4 < (tinyAt 59 []).cfg.memoryMax ∧
    ({ tinyAt 59 [] with regs := ⟨255, 1, 0, 0, 0, 0, 0, 0⟩ } : State).regs.get 1 ≠ 0 ∧
    (255 : Nat) ≠ 0 := by decide
theorem test_meets_division_by_zero : (tinyAt 63 []).regs.get 1 = 0 := by decide
/-- For both statements about comparisons. -/
theorem test_meets_comparison_inside :
    (tinyAt 60 []).pc + 3 < (tinyAt 60 []).cfg.memoryMax := by decide
/-- A machine with three labels, the second and third of one name. -/
def labelled (cond : Bool) (flag : Flag) : State :=
  { tinyAt 61 [] with
    labels := [⟨35, []⟩] ++ ⟨38, [97]⟩ :: [⟨41, [97]⟩], cond := cond, flag := flag }

/-- A state for every condition. -/
theorem test_meets_taken_jump :
    (labelled true .zero).labels = [⟨35, []⟩] ++ ⟨38, [97]⟩ :: [⟨41, [97]⟩] ∧
    (∀ m ∈ ([⟨35, []⟩] : List Label), m.name ≠ [97]) ∧
    (labelled true .zero).cond = true ∧ (labelled false .neg).cond = false ∧
    (labelled true .zero).flag = .zero ∧ (labelled true .none).flag ≠ .zero ∧
    (labelled true .neg).flag = .neg ∧ (labelled true .zero).flag ≠ .neg := by decide
theorem test_meets_untaken_jump :
    (tinyAt 60 []).pc + (2 + ([97] : List Nat).length) < (tinyAt 60 []).cfg.memoryMax ∧
    (labelled false .none).cond = false ∧ (labelled true .none).cond = true ∧
    (labelled false .none).flag ≠ .zero ∧ (labelled false .zero).flag = .zero ∧
    (labelled false .none).flag ≠ .neg ∧ (labelled false .neg).flag = .neg := by decide
theorem test_meets_undefined_label :
    jumpOf (labelled false .none) (.jf [98]) = some ([98], true) ∧
    ∀ l ∈ (labelled false .none).labels, l.name ≠ [98] := by decide
/-- The state an LBL "b" leaves. -/
def afterLbl : State := { tinyAt 60 [] with labels := [⟨63, [98]⟩], pc := 63 }

/-- With a later state that has an entry more. -/
theorem test_meets_backward_jump :
    exec (.lbl [98]) (tinyAt 60 []) = .next afterLbl ∧ afterLbl.status ≠ .faulted ∧
    (∀ l ∈ (tinyAt 60 []).labels, l.name ≠ [98]) ∧
    afterLbl.labels <+: ({ afterLbl with labels := [⟨63, [98]⟩, ⟨50, [98]⟩] } : State).labels :=
  ⟨rfl, by decide, by decide, by decide⟩
/-- For PUTN, PUTS and FLUSH. -/
theorem test_meets_output_inside :
    (tinyAt 61 []).pc + 2 < (tinyAt 61 []).cfg.memoryMax ∧
    (tinyAt 60 []).pc + (2 + ([321] : List Nat).length) < (tinyAt 60 []).cfg.memoryMax ∧
    (tinyAt 62 []).pc + 1 < (tinyAt 62 []).cfg.memoryMax := by decide
theorem test_meets_lbl_room :
    ({ tinyAt 60 [] with labels := [⟨35, [97]⟩] } : State).labels.length < Cfg.tiny.labelMax ∧
    (tinyAt 60 []).pc + (2 + ([98] : List Nat).length) < (tinyAt 60 []).cfg.memoryMax :=
  by decide
theorem test_meets_full_table :
    Cfg.tiny.labelMax ≤ (labelled false .none).labels.length := by decide
/-- The instruction completes with a next state that is not the fault state. -/
def completes (i : Instr) (s : State) : Bool :=
  (nextOf (exec i s)).any (fun t => t.status != .faulted)

/-- Completing and faulting. -/
theorem test_meets_load_and_store_frames :
    [Instr.ld 7 31, .ldi 7 255, .st 7].all
      (fun i => completes i (tinyAt 60 [])) = true ∧
    completes (.ld 8 31) (tinyAt 60 []) = false := by decide
theorem test_meets_arithmetic_frame :
    [Instr.add 0 1 2, .addi 0 1 2, .sub 0 1 2, .subi 0 1 2, .mul 0 1 2, .muli 0 1 2,
      .div 0 1 2, .divi 0 1 2].all
      (fun i => completes i { tinyAt 59 [] with regs := ⟨7, 2, 0, 0, 0, 0, 0, 0⟩ }) = true :=
  by decide
theorem test_meets_compare_frame :
    [Instr.ceq 0 1, .cgr 0 1, .clo 0 1, .cge 0 1, .cle 0 1, .cne 0 1].all
      (fun i => completes i (tinyAt 60 [])) = true := by decide
/-- Taken and not taken. -/
theorem test_meets_jump_frame :
    [Instr.jmp [97], .jt [97], .jf [97], .jz [97], .jnz [97], .jn [97], .jnn [97]].all
      (fun i => completes i { labelled true .neg with pc := 60 }) = true := by decide
theorem test_meets_output_and_label_frames :
    [Instr.putn 7, .puts [65], .flush, .lbl [97]].all
      (fun i => completes i (tinyAt 60 [])) = true := by decide
/-- A state the invariant holds of, and a step follows. -/
def invStart : State := { tinyAt 60 [3, 1] with wcur := 31, labels := [⟨33, [97]⟩] }

/-- For the statements about a step from a state of the invariant. -/
theorem test_meets_step_keeps_the_invariant :
    invStart.Inv ∧ (nextOf (step invStart)).isSome = true := by decide
theorem test_meets_reset_meets_the_invariant : Cfg.tiny.Wf := by decide
theorem test_meets_host_keeps_the_invariant :
    (State.resetOf Cfg.tiny 0).Inv ∧ (setStatus .loaded (State.resetOf Cfg.tiny 0)).Inv ∧
    (nextOf (hostStep (.loadCode [0, 255]) (State.resetOf Cfg.tiny 0))).isSome = true ∧
    (nextOf (hostStep (.preset 7 255)
      (setStatus .loaded (State.resetOf Cfg.tiny 0)))).isSome = true ∧
    (nextOf (hostStep .start (setStatus .loaded (State.resetOf Cfg.tiny 0)))).isSome = true ∧
    (nextOf (hostStep .step invStart)).isSome = true :=
  ⟨by decide, by decide, by decide, by decide, by decide, by decide⟩
theorem test_meets_code_region : Cfg.tiny.codeStart ≤ 32 ∧ Cfg.tiny.codeStart ≤ 63 := by decide
theorem test_meets_tables_grow :
    ran invStart (fun t => t.wcur == 31) = true ∧
    ran { invStart with wcur := 30 } (fun t => t.wcur == 31) = true := by decide
/-- The instruction changes the piece of state `f` reads. -/
def changes {α : Type} [DecidableEq α] (f : State → α) (i : Instr) (s : State) : Bool :=
  (nextOf (exec i s)).any (fun t => decide (f t ≠ f s))

/-- Each clause's piece of state does change. -/
theorem test_meets_only_its_family :
    changes State.regs (.ldi 0 1) (tinyAt 59 []) = true ∧
    changes State.regs (.addi 0 1 0) (tinyAt 59 []) = true ∧
    changes State.flag (.subi 0 1 0) (tinyAt 59 []) = true ∧
    changes State.cond (.ceq 0 0) (tinyAt 59 []) = true ∧
    changes State.mem (.st 0) (tinyAt 59 []) = true ∧
    changes State.wcur (.st 0) (tinyAt 59 []) = true ∧
    changes State.labels (.lbl []) (tinyAt 59 []) = true ∧
    changes State.out .flush (tinyAt 59 []) = true ∧
    changes State.status .halt (tinyAt 59 []) = true := by decide
theorem test_meets_pc_after :
    jumpOf (labelled true .none) (.jt [97]) = some ([97], true) ∧
    completes (.jt [97]) (labelled true .none) = true ∧
    completes (.lbl []) (tinyAt 61 []) = true ∧
    completes (.lbl [97]) (tinyAt 61 []) = false := by decide
/-- Exactly as many stores as the region has cells. -/
theorem test_meets_stores_saturate :
    (tinyAt 60 []).wcur = 0 ∧ 0 < Cfg.tiny.dataEnd ∧ 30 < Cfg.tiny.dataEnd - 1 ∧
    ¬ 31 < Cfg.tiny.dataEnd - 1 ∧ Cfg.tiny.dataEnd ≤ (List.replicate 31 0 ++ [9]).length ∧
    (List.replicate 31 0 ++ [9]).getLast? = some 9 := by decide
theorem test_meets_load_after_store :
    Cfg.tiny.Wf ∧ (tinyAt 58 []).wcur < Cfg.tiny.dataEnd ∧ 31 < Cfg.tiny.dataEnd ∧
    (tinyAt 58 []).pc + 5 < Cfg.tiny.memoryMax := by decide
/-- X6: 31 words load and 32 do not. -/
theorem test_meets_load_code :
    (State.resetOf Cfg.tiny 0).status = .idle ∧
    (∀ v ∈ List.replicate 32 255, IsWord Cfg.tiny.w v) ∧
    (List.replicate 31 255).length + 1 ≤ Cfg.tiny.codeCap ∧
    Cfg.tiny.codeCap < (List.replicate 32 255).length + 1 := by decide
theorem test_meets_protocol :
    (setStatus .loaded State.reset).status = .loaded ∧ IsWord State.reset.cfg.w 65535 ∧
    State.reset.status ≠ .loaded ∧ 7 < 8 ∧ (setStatus .loaded State.reset).status ≠ .idle :=
  by decide
/-- A program that fills the code region. -/
theorem test_meets_loaded_program :
    Cfg.tiny.Wf ∧ (Instr.lbl [97]).wellFormed Cfg.tiny = true ∧
    (∀ v ∈ List.replicate 28 255, IsWord Cfg.tiny.w v) ∧
    (encode Cfg.tiny (.lbl [97]) ++ List.replicate 28 255).length + 1 ≤ Cfg.tiny.codeCap :=
  by decide
/-- The codes of R220. -/
theorem test_fault_codes :
    ([.unrecognizedOperation 29, .registerOutOfBounds 8, .offsetOutOfBounds (-1),
      .outOfBounds 64, .codeTooLarge 32, .tooManyLabels, .undefinedLabel [97], .divisionByZero,
      .nameTooLong 33] : List Err).map (fun e => readErr (takeFault e State.reset)) =
      [1, 2, 3, 4, 5, 6, 7, 8, 9] := by decide
/-- The last word, the first address that is none, and all of memory. -/
theorem test_meets_accessors :
    63 < Cfg.tiny.memoryMax ∧ Cfg.tiny.memoryMax ≤ 64 ∧ 64 ≤ Cfg.tiny.memoryMax := by decide

end Sys2Proof.Tests
end

/-!
SUPPORT. What decoding answers: the formats of spec/30_encoding.md rule R81 taken apart, the decoded
instruction is well-formed, and how the fetch of a running core proceeds.
-/

namespace Sys2Proof

open Machine (Err)

section Formats

variable {rd : Nat → Except Err Nat} {a : Nat} {i : Instr}

theorem readOne_eq_ok {mk : Nat → Instr} :
    readOne rd a mk = .ok i ↔ ∃ w1, rd (a + 1) = .ok w1 ∧ mk w1 = i := by
  simp only [readOne, Machine.bind_eq_ok, Except.ok.injEq]

theorem readTwo_eq_ok {mk : Nat → Nat → Instr} :
    readTwo rd a mk = .ok i ↔
      ∃ w1, rd (a + 1) = .ok w1 ∧ ∃ w2, rd (a + 2) = .ok w2 ∧ mk w1 w2 = i := by
  simp only [readTwo, Machine.bind_eq_ok, Except.ok.injEq]

theorem readThree_eq_ok {mk : Nat → Nat → Nat → Instr} :
    readThree rd a mk = .ok i ↔
      ∃ w1, rd (a + 1) = .ok w1 ∧ ∃ w2, rd (a + 2) = .ok w2 ∧
        ∃ w3, rd (a + 3) = .ok w3 ∧ mk w1 w2 w3 = i := by
  simp only [readThree, Machine.bind_eq_ok, Except.ok.injEq]

theorem readNamed_eq_ok {c : Cfg} {mk : List Nat → Instr} :
    readNamed c rd a mk = .ok i ↔
      ∃ name, readName rd (a + 1) c.nameMax (a + 1) = .ok name ∧ mk name = i := by
  simp only [readNamed, Machine.bind_eq_ok, Except.ok.injEq]

theorem readCounted_eq_ok {mk : List Nat → Instr} :
    readCounted rd a mk = .ok i ↔
      ∃ n, rd (a + 1) = .ok n ∧ ∃ chars, readWords rd n (a + 2) = .ok chars ∧ mk chars = i := by
  simp only [readCounted, Machine.bind_eq_ok, Except.ok.injEq]

end Formats

section WordReader

variable {c : Cfg} {rd : Nat → Except Err Nat} {a : Nat} {i : Instr}
variable (hrd : ∀ b v, rd b = .ok v → IsWord c.w v)
include hrd

/-- A name read from words is a name as R86 has it. -/
theorem readName_nameOk {start : Nat} {name : List Nat}
    (h : readName rd start c.nameMax a = .ok name) : NameOk c name := by
  obtain ⟨hlen, hne, hread, -⟩ := readName_eq_ok.1 h
  refine ⟨hlen, fun ch hch => ⟨hne ch hch, ?_⟩⟩
  obtain ⟨k, hk, rfl⟩ := List.mem_iff_getElem.1 hch
  exact hrd _ _ (hread k hk)

/-- A run of words as many as a word counts is a PUTS run as R87 has it. -/
theorem readWords_charsOk {n : Nat} {chars : List Nat} (hn : IsWord c.w n)
    (h : readWords rd n a = .ok chars) : CharsOk c chars := by
  obtain ⟨rfl, hread⟩ := readWords_eq_ok.1 h
  refine ⟨hn, fun ch hch => ?_⟩
  obtain ⟨k, hk, rfl⟩ := List.mem_iff_getElem.1 hch
  exact hrd _ _ (hread k hk)

/-- Operands read from words are well-formed, one format a case. -/
theorem decodeOperands_wellFormed {o : Op} (h : decodeOperands c rd a o = .ok i) :
    i.wellFormed c = true := by
  cases o
  case halt | flush => cases h; rfl
  case st | putn =>
    obtain ⟨w1, h1, rfl⟩ := readOne_eq_ok.1 h
    exact decide_eq_true (hrd _ _ h1)
  case ld | ldi | ceq | cgr | clo | cge | cle | cne =>
    obtain ⟨w1, h1, w2, h2, rfl⟩ := readTwo_eq_ok.1 h
    exact decide_eq_true ⟨hrd _ _ h1, hrd _ _ h2⟩
  case add | addi | sub | subi | mul | muli | div | divi =>
    obtain ⟨w1, h1, w2, h2, w3, h3, rfl⟩ := readThree_eq_ok.1 h
    exact decide_eq_true ⟨hrd _ _ h1, hrd _ _ h2, hrd _ _ h3⟩
  case jmp | jt | jf | jz | jnz | jn | jnn | lbl =>
    obtain ⟨name, hname, rfl⟩ := readNamed_eq_ok.1 h
    exact decide_eq_true (readName_nameOk hrd hname)
  case puts =>
    obtain ⟨n, hn, chars, hchars, rfl⟩ := readCounted_eq_ok.1 h
    exact decide_eq_true (readWords_charsOk hrd (hrd _ _ hn) hchars)

/-- An instruction decoded from words is well-formed (R80, R86, R87). -/
theorem decodeAt_wellFormed (h : decodeAt c rd a = .ok i) : i.wellFormed c = true := by
  obtain ⟨_, _, -, -, hops⟩ := decodeAt_eq_ok.1 h
  exact decodeOperands_wellFormed hrd hops

end WordReader

end Sys2Proof

namespace Sys2Proof.Machine

/-- With the opcode of `o` at the pc, fetching goes on with the operands of `o` (R88, R113). -/
theorem fetchInstr_of_opcode {s : State} {o : Op} (hc : s.cfg.Wf) (hpc : s.pc < s.cfg.memoryMax)
    (ho : memRead s s.pc = s.cfg.opc.code o) :
    fetchInstr s = decodeOperands s.cfg (fetch s) s.pc o := by
  rw [fetchInstr, decodeAt, fetch_ok hpc, bind_ok, ho, opOf_code hc]

/-- A fault met while fetching is taken (R224). -/
theorem step_of_fetch_error {s : State} {e : Err} (hs : s.status = .running)
    (h : fetchInstr s = .error e) : step s = .next (takeFault e s) := by
  rw [step, hs, h]

/-- A run of words that leaves memory is not read: the fetch of the first address beyond it fails
(R53, R191). -/
theorem readWords_fetch_error {s : State} {n a : Nat} (ha : a ≤ s.cfg.memoryMax)
    (hn : s.cfg.memoryMax < a + n) :
    readWords (fetch s) n a = .error (.outOfBounds s.cfg.memoryMax) := by
  induction n generalizing a with
  | zero => omega
  | succ n ih =>
    rw [readWords]
    rcases Nat.lt_or_eq_of_le ha with hlt | rfl
    · rw [fetch_ok hlt, bind_ok, ih hlt (by omega), bind_error]
    · rw [fetch_error le_rfl, bind_error]

/-- A PUTS whose count word or run leaves memory is not decoded (R191). -/
theorem readCounted_fetch_error {s : State} {mk : List Nat → Instr} (hpc : s.pc < s.cfg.memoryMax)
    (hout : s.cfg.memoryMax ≤ s.pc + 1 ∨ s.cfg.memoryMax < s.pc + 2 + memRead s (s.pc + 1)) :
    readCounted (fetch s) s.pc mk = .error (.outOfBounds s.cfg.memoryMax) := by
  rw [readCounted]
  by_cases hcount : s.cfg.memoryMax ≤ s.pc + 1
  · have hend : s.pc + 1 = s.cfg.memoryMax := by omega
    rw [fetch_error hcount, bind_error, hend]
  · have hrun := hout.resolve_left hcount
    rw [fetch_ok (by omega), bind_ok, readWords_fetch_error (by omega) hrun, bind_error]

/-- Settles O15: the reading of the count and the run meets the end of memory. -/
theorem putsRunOutsideMemoryFaults : Obligations.PutsRunOutsideMemoryFaults := by
  intro s hc hs hpc ho hout
  refine step_of_fetch_error hs ?_
  rw [fetchInstr_of_opcode (o := .puts) hc hpc ho]
  exact readCounted_fetch_error hpc hout

/-!
SUPPORT. What each instruction outside the templates can do, its checks included: it takes a fault,
or every check passed and its writes are those of its rule.
-/

section Inversion

variable {s t : State}

/-- The end of an instruction, the fault first. -/
theorem conclude_fault_or_ok {r : Except Err State} (h : conclude s r = .next t) :
    (∃ e, t = takeFault e s) ∨ r = .ok t :=
  (conclude_cases h).symm.imp_left fun ⟨e, _, ht⟩ => ⟨e, ht⟩

theorem labelRoom_eq_ok {u : Unit} :
    labelRoom s = .ok u ↔ s.labels.length < s.cfg.labelMax := by
  rcases labelRoom_cases s with ⟨h, hr⟩ | ⟨h, hr⟩
  · simp [hr, h]
  · simp [hr, h]

/-- LD (R131). -/
theorem execLd_cases {rd off : Nat} (h : execLd rd off s = .next t) :
    (∃ e, t = takeFault e s) ∨
    ∃ (d : Fin 8) (a : Nat), rd = d.val ∧ loadAddr off s = .ok a ∧
      s.pc + 3 < s.cfg.memoryMax ∧ t = setPc (s.pc + 3) (setReg d (memRead s a) s) := by
  refine (conclude_fault_or_ok h).imp_right fun h => ?_
  simp only [bind_eq_ok, regIdx_eq_ok, nextPc_eq_ok] at h
  obtain ⟨d, hd, a, ha, _, ⟨rfl, hn⟩, ⟨⟩⟩ := h
  exact ⟨d, a, hd, ha, hn, rfl⟩

/-- LDI (R132). -/
theorem execLdi_cases {rd imm : Nat} (h : execLdi rd imm s = .next t) :
    (∃ e, t = takeFault e s) ∨
    ∃ d : Fin 8, rd = d.val ∧ s.pc + 3 < s.cfg.memoryMax ∧
      t = setPc (s.pc + 3) (setReg d imm s) := by
  refine (conclude_fault_or_ok h).imp_right fun h => ?_
  simp only [bind_eq_ok, regIdx_eq_ok, nextPc_eq_ok] at h
  obtain ⟨d, hd, _, ⟨rfl, hn⟩, ⟨⟩⟩ := h
  exact ⟨d, hd, hn, rfl⟩

/-- ST (R133). -/
theorem execSt_cases {rs : Nat} (h : execSt rs s = .next t) :
    (∃ e, t = takeFault e s) ∨
    ∃ r : Fin 8, rs = r.val ∧ s.pc + 2 < s.cfg.memoryMax ∧
      t = setPc (s.pc + 2) (writeAppend (s.regs.get r) s) := by
  refine (conclude_fault_or_ok h).imp_right fun h => ?_
  simp only [bind_eq_ok, regIdx_eq_ok, nextPc_eq_ok] at h
  obtain ⟨r, hr, _, ⟨rfl, hn⟩, ⟨⟩⟩ := h
  exact ⟨r, hr, hn, rfl⟩

/-- PUTN (R190). -/
theorem execPutn_cases {rs : Nat} (h : execPutn rs s = .next t) :
    (∃ e, t = takeFault e s) ∨
    ∃ r : Fin 8, rs = r.val ∧ s.pc + 2 < s.cfg.memoryMax ∧
      t = setPc (s.pc + 2) (emit (decimal (s.regs.get r)) s) := by
  refine (conclude_fault_or_ok h).imp_right fun h => ?_
  simp only [bind_eq_ok, regIdx_eq_ok, nextPc_eq_ok] at h
  obtain ⟨r, hr, _, ⟨rfl, hn⟩, ⟨⟩⟩ := h
  exact ⟨r, hr, hn, rfl⟩

/-- PUTS (R191). -/
theorem execPuts_cases {chars : List Nat} (h : execPuts chars s = .next t) :
    (∃ e, t = takeFault e s) ∨
    (s.pc + (2 + chars.length) < s.cfg.memoryMax ∧
      t = setPc (s.pc + (2 + chars.length)) (emit (chars.map cellByte) s)) := by
  refine (conclude_fault_or_ok h).imp_right fun h => ?_
  simp only [bind_eq_ok, nextPc_eq_ok] at h
  obtain ⟨_, ⟨rfl, hn⟩, ⟨⟩⟩ := h
  exact ⟨hn, rfl⟩

/-- FLUSH (R192). -/
theorem execFlush_cases (h : execFlush s = .next t) :
    (∃ e, t = takeFault e s) ∨
    (s.pc + 1 < s.cfg.memoryMax ∧ t = setPc (s.pc + 1) (emit [newline] s)) := by
  refine (conclude_fault_or_ok h).imp_right fun h => ?_
  simp only [bind_eq_ok, nextPc_eq_ok] at h
  obtain ⟨_, ⟨rfl, hn⟩, ⟨⟩⟩ := h
  exact ⟨hn, rfl⟩

/-- LBL (R203). -/
theorem execLbl_cases {name : List Nat} (h : execLbl name s = .next t) :
    (∃ e, t = takeFault e s) ∨
    (s.labels.length < s.cfg.labelMax ∧ s.pc + (2 + name.length) < s.cfg.memoryMax ∧
      t = setPc (s.pc + (2 + name.length)) (define (s.pc + (2 + name.length)) name s)) := by
  refine (conclude_fault_or_ok h).imp_right fun h => ?_
  simp only [bind_eq_ok, labelRoom_eq_ok, nextPc_eq_ok] at h
  obtain ⟨-, hroom, _, ⟨rfl, hn⟩, ⟨⟩⟩ := h
  exact ⟨hroom, hn, rfl⟩

/-- LD and LDI write the register their first operand names and the pc, or take a fault. -/
theorem exec_load_cases {rd x : Nat}
    (h : exec (.ld rd x) s = .next t ∨ exec (.ldi rd x) s = .next t) :
    (∃ e, t = takeFault e s) ∨
    ∃ (d : Fin 8) (v p : Nat), rd = d.val ∧ t = setPc p (setReg d v s) := by
  rcases h with h | h
  · exact (execLd_cases h).imp_right fun ⟨d, _, hd, _, _, ht⟩ => ⟨d, _, _, hd, ht⟩
  · exact (execLdi_cases h).imp_right fun ⟨d, hd, _, ht⟩ => ⟨d, _, _, hd, ht⟩

end Inversion

/-- A register the operand does not name keeps its word (R20). -/
theorem sameRegsBut_setReg (d : Fin 8) (v p : Nat) (s : State) :
    SameRegsBut d.val s (setPc p (setReg d v s)) := by
  intro k hk
  have hkd : k ≠ d := fun h => hk (congrArg Fin.val h)
  simp [hkd]

/-- Settles O39: a load that completes writes one register and the pc, one that does not takes a
fault. -/
theorem loadFrame : Obligations.LoadFrame := by
  intro rd x s t h
  rcases exec_load_cases h with ⟨e, rfl⟩ | ⟨d, v, p, rfl, rfl⟩
  · exact ⟨fun _ _ => rfl, rfl, rfl, memRead_takeFault e s, rfl, rfl, rfl,
      .inr ⟨e, rfl⟩, rfl, rfl⟩
  · exact ⟨sameRegsBut_setReg d v p s, rfl, rfl, fun _ => rfl, rfl, rfl, rfl,
      .inl ⟨rfl, rfl⟩, rfl, rfl⟩

/-!
SUPPORT. The invariant of the machine under each state operation: what the operation must be given
for the state it leaves to meet the invariant.
-/

theorem mem_of_memLookup {a v : Nat} {m : Memory} (h : memLookup a m = some v) : (a, v) ∈ m := by
  induction m with
  | nil => cases h
  | cons cell m ih =>
    rw [memLookup] at h
    split at h
    · next hab => cases h; subst hab; exact List.mem_cons_self ..
    · exact List.mem_cons_of_mem _ (ih h)

/-- Every cell reads as a word, written or not (R32, R33). -/
theorem memRead_isWord {s : State} (hm : MemOk s) (a : Nat) : IsWord s.cfg.w (memRead s a) := by
  unfold memRead
  split
  · next v hv => exact (hm.2 _ (mem_of_memLookup hv)).2
  · exact Nat.mod_lt _ (Nat.two_pow_pos _)

/-- A fetched instruction is well-formed in a machine that holds words. -/
theorem fetchInstr_wellFormed {s : State} {i : Instr} (hm : MemOk s)
    (h : fetchInstr s = .ok i) : i.wellFormed s.cfg = true := by
  refine decodeAt_wellFormed (fun b v hv => ?_) h
  obtain ⟨-, rfl⟩ := fetch_eq_ok.1 hv
  exact memRead_isWord hm b

section Invariant

variable {s t : State} (hi : s.Inv)
include hi

theorem State.Inv.regsOk : RegsOk s := by
  obtain ⟨-, hregs, -⟩ := hi
  exact hregs

theorem State.Inv.codeStart_le_pc : s.cfg.codeStart ≤ s.pc := by
  obtain ⟨-, -, ⟨hstart, -⟩, -⟩ := hi
  exact hstart

theorem State.Inv.memOk : MemOk s := by
  obtain ⟨-, -, -, hmem, -⟩ := hi
  exact hmem

theorem State.Inv.labelOk : ∀ l ∈ s.labels, LabelOk s.cfg l := by
  obtain ⟨-, -, -, -, -, ⟨-, hall⟩, -⟩ := hi
  exact hall

theorem takeFault_keeps_inv (e : Err) : (takeFault e s).Inv := by
  obtain ⟨hcfg, hregs, hpc, hmem, hcur, hlabels, -⟩ := hi
  exact ⟨hcfg, hregs, hpc, hmem, hcur, hlabels, by simp⟩

theorem halt_keeps_inv (hs : s.status ≠ .faulted) : (setStatus .halted s).Inv := by
  obtain ⟨hcfg, hregs, hpc, hmem, hcur, hlabels, herr⟩ := hi
  have hnone : s.err = none := not_not.1 (mt herr.2 hs)
  exact ⟨hcfg, hregs, hpc, hmem, hcur, hlabels, by simp [hnone]⟩

theorem setPc_keeps_inv {p : Nat} (hp : s.cfg.codeStart ≤ p ∧ p < s.cfg.memoryMax) :
    (setPc p s).Inv := by
  obtain ⟨hcfg, hregs, -, hrest⟩ := hi
  exact ⟨hcfg, hregs, hp, hrest⟩

/-- The sequential advance stays in the code region (R25, R116). -/
theorem advance_keeps_inv {n : Nat} (hn : s.pc + n < s.cfg.memoryMax) :
    (setPc (s.pc + n) s).Inv :=
  setPc_keeps_inv hi ⟨Nat.le_add_right_of_le hi.codeStart_le_pc, hn⟩

theorem setReg_keeps_inv (d : Fin 8) {v : Nat} (hv : IsWord s.cfg.w v) : (setReg d v s).Inv := by
  obtain ⟨hcfg, hregs, hrest⟩ := hi
  refine ⟨hcfg, fun k => ?_, hrest⟩
  rw [setReg_regs, regs_get_set]
  split
  · exact hv
  · exact hregs k

theorem setFlag_keeps_inv (f : Flag) : (setFlag f s).Inv := hi

theorem setCond_keeps_inv (b : Bool) : (setCond b s).Inv := hi

theorem emit_keeps_inv (bs : List Byte) : (emit bs s).Inv := hi

/-- A store at the cursor: a cell of memory, a word, and a cursor that saturates (R34, R57). -/
theorem writeAppend_keeps_inv {v : Nat} (hv : IsWord s.cfg.w v) : (writeAppend v s).Inv := by
  obtain ⟨hcfg, hregs, hpc, ⟨hwf, hcells⟩, hcur, hlabels, herr⟩ := hi
  refine ⟨by simpa using hcfg, fun k => by simpa using hregs k, by simpa using hpc,
    ⟨writeAppend_wf v hwf, fun cell hcell => ?_⟩, ?_, by simpa using hlabels, by simpa using herr⟩
  · rw [writeAppend_mem] at hcell
    rw [writeAppend_cfg]
    rcases mem_memInsert hcell with rfl | hold
    · have hin : s.wcur < s.cfg.memoryMax := by
        unfold Cfg.dataEnd at hcur; omega
      exact ⟨hin, hv⟩
    · exact hcells cell hold
  · rw [writeAppend_wcur, writeAppend_cfg]
    split <;> omega

/-- An entry of LBL's kind in a table with room (R35, R201). -/
theorem define_keeps_inv {a : Nat} {name : List Nat} (hroom : s.labels.length < s.cfg.labelMax)
    (hl : LabelOk s.cfg ⟨a, name⟩) : (define a name s).Inv := by
  obtain ⟨hcfg, hregs, hpc, hmem, hcur, ⟨-, hall⟩, herr⟩ := hi
  refine ⟨hcfg, hregs, hpc, hmem, hcur, ⟨?_, fun l hl' => ?_⟩, herr⟩
  · rw [define_labels, List.length_append]
    exact hroom
  · rw [define_labels, List.mem_append, List.mem_singleton] at hl'
    rcases hl' with hold | rfl
    · exact hall l hold
    · exact hl

/-- The writes of an arithmetic instruction: the stored word is reduced (R140, R142). -/
theorem arithWrite_keeps_inv (d : Fin 8) (res : Int) (hn : s.pc + 4 < s.cfg.memoryMax) :
    (arithWrite d res (s.pc + 4) s).Inv :=
  advance_keeps_inv (s := setFlag (classify res) (setReg d (narrow s.cfg.w res) s))
    (setFlag_keeps_inv (setReg_keeps_inv hi d (narrow_isWord _ _)) _) hn

/-!
SUPPORT. The invariant under each instruction of a running core.
-/

/-- The end of an instruction whose writes keep the invariant. -/
theorem conclude_keeps_inv {r : Except Err State} (hr : ∀ u, r = .ok u → u.Inv)
    (h : conclude s r = .next t) : t.Inv := by
  rcases conclude_cases h with h | ⟨e, -, rfl⟩
  · exact hr t h
  · exact takeFault_keeps_inv hi e

theorem arithRR_keeps_inv {f : Nat → Nat → Except Err Int} {ra rb rd : Nat}
    (h : arithRR f ra rb rd s = .ok t) : t.Inv := by
  obtain ⟨-, -, d, res, -, -, -, -, hn, rfl⟩ := arithRR_eq_ok.1 h
  exact arithWrite_keeps_inv hi d res hn

theorem arithRI_keeps_inv {f : Nat → Nat → Except Err Int} {ra imm rd : Nat}
    (h : arithRI f ra imm rd s = .ok t) : t.Inv := by
  obtain ⟨-, d, res, -, -, -, hn, rfl⟩ := arithRI_eq_ok.1 h
  exact arithWrite_keeps_inv hi d res hn

theorem compareRegs_keeps_inv {rel : Nat → Nat → Bool} {ra rb : Nat}
    (h : compareRegs rel ra rb s = .ok t) : t.Inv := by
  obtain ⟨a, b, -, -, hn, rfl⟩ := compareRegs_eq_ok.1 h
  exact advance_keeps_inv (setCond_keeps_inv hi (rel (s.regs.get a) (s.regs.get b))) hn

/-- A taken jump goes to an entry's address, which lies in the code region (R170, R203). -/
theorem jump_keeps_inv {taken : Bool} {name : List Nat} (h : jump taken name s = .ok t) :
    t.Inv := by
  rcases jump_eq_ok.1 h with ⟨-, a, ha, rfl⟩ | ⟨-, hn, rfl⟩
  · obtain ⟨l, hl, -, rfl⟩ := resolve_ok_mem ha
    obtain ⟨hstart, hend, -⟩ := hi.labelOk l hl
    exact setPc_keeps_inv hi ⟨hstart.le, hend⟩
  · exact advance_keeps_inv hi hn

theorem execLd_keeps_inv {rd off : Nat} (h : execLd rd off s = .next t) : t.Inv := by
  rcases execLd_cases h with ⟨e, rfl⟩ | ⟨d, a, -, -, hn, rfl⟩
  · exact takeFault_keeps_inv hi e
  · exact advance_keeps_inv (setReg_keeps_inv hi d (memRead_isWord hi.memOk a)) hn

theorem execLdi_keeps_inv {rd imm : Nat} (himm : IsWord s.cfg.w imm)
    (h : execLdi rd imm s = .next t) : t.Inv := by
  rcases execLdi_cases h with ⟨e, rfl⟩ | ⟨d, -, hn, rfl⟩
  · exact takeFault_keeps_inv hi e
  · exact advance_keeps_inv (setReg_keeps_inv hi d himm) hn

theorem execSt_keeps_inv {rs : Nat} (h : execSt rs s = .next t) : t.Inv := by
  rcases execSt_cases h with ⟨e, rfl⟩ | ⟨r, -, hn, rfl⟩
  · exact takeFault_keeps_inv hi e
  · refine setPc_keeps_inv (writeAppend_keeps_inv hi (hi.regsOk r)) ?_
    rw [writeAppend_cfg]
    exact ⟨Nat.le_add_right_of_le hi.codeStart_le_pc, hn⟩

theorem execPutn_keeps_inv {rs : Nat} (h : execPutn rs s = .next t) : t.Inv := by
  rcases execPutn_cases h with ⟨e, rfl⟩ | ⟨r, -, hn, rfl⟩
  · exact takeFault_keeps_inv hi e
  · exact advance_keeps_inv (emit_keeps_inv hi (decimal (s.regs.get r))) hn

theorem execPuts_keeps_inv {chars : List Nat} (h : execPuts chars s = .next t) : t.Inv := by
  rcases execPuts_cases h with ⟨e, rfl⟩ | ⟨hn, rfl⟩
  · exact takeFault_keeps_inv hi e
  · exact advance_keeps_inv (emit_keeps_inv hi (chars.map cellByte)) hn

theorem execFlush_keeps_inv (h : execFlush s = .next t) : t.Inv := by
  rcases execFlush_cases h with ⟨e, rfl⟩ | ⟨hn, rfl⟩
  · exact takeFault_keeps_inv hi e
  · exact advance_keeps_inv (emit_keeps_inv hi [newline]) hn

/-- LBL's entry has an address after the LBL, so after the code start (R35, R203). -/
theorem execLbl_keeps_inv {name : List Nat} (hname : NameOk s.cfg name)
    (h : execLbl name s = .next t) : t.Inv := by
  rcases execLbl_cases h with ⟨e, rfl⟩ | ⟨hroom, hn, rfl⟩
  · exact takeFault_keeps_inv hi e
  · have hstart := hi.codeStart_le_pc
    have hafter : s.cfg.codeStart < s.pc + (2 + name.length) := by omega
    exact advance_keeps_inv (define_keeps_inv hi hroom ⟨hafter, hn, hname⟩) hn

/-- Every well-formed instruction of a core that has taken no fault keeps the invariant. -/
theorem exec_keeps_inv {i : Instr} (hs : s.status ≠ .faulted) (hw : i.wellFormed s.cfg = true)
    (h : exec i s = .next t) : t.Inv := by
  cases i
  case halt => cases h; exact halt_keeps_inv hi hs
  case ld => exact execLd_keeps_inv hi h
  case ldi =>
    obtain ⟨-, himm⟩ := of_decide_eq_true hw
    exact execLdi_keeps_inv hi himm h
  case st => exact execSt_keeps_inv hi h
  case add | sub | mul | div =>
    exact conclude_keeps_inv hi (fun _ hu => arithRR_keeps_inv hi hu) h
  case addi | subi | muli | divi =>
    exact conclude_keeps_inv hi (fun _ hu => arithRI_keeps_inv hi hu) h
  case ceq | cgr | clo | cge | cle | cne =>
    exact conclude_keeps_inv hi (fun _ hu => compareRegs_keeps_inv hi hu) h
  case jmp | jt | jf | jz | jnz | jn | jnn =>
    exact conclude_keeps_inv hi (fun _ hu => jump_keeps_inv hi hu) h
  case putn => exact execPutn_keeps_inv hi h
  case puts => exact execPuts_keeps_inv hi h
  case flush => exact execFlush_keeps_inv hi h
  case lbl => exact execLbl_keeps_inv hi (of_decide_eq_true hw) h

end Invariant

/-- Settles O46: memory holds words, so the fetched instruction is well-formed, and every
well-formed instruction keeps the invariant; so does a fault taken while fetching. -/
theorem stepKeepsTheInvariant : Obligations.StepKeepsTheInvariant := by
  intro s t hi h
  obtain ⟨hs, ⟨i, hf, hx⟩ | ⟨e, -, rfl⟩⟩ := step_cases h
  · exact exec_keeps_inv hi (by simp [hs]) (fetchInstr_wellFormed hi.memOk hf) hx
  · exact takeFault_keeps_inv hi e

end Sys2Proof.Machine

/-!
SUPPORT. From words to the instruction: the words of a well-formed instruction, wherever a reader
finds them, decode to it (spec/30_encoding.md rules R81 and R88).
-/

namespace Sys2Proof

open Machine (Err)

/-- The reader finds the words `ws` in increasing address order from `a` on. -/
abbrev WordsAt (rd : Nat → Except Err Nat) (a : Nat) (ws : List Nat) : Prop :=
  ∀ (k : Nat) (h : k < ws.length), rd (a + k) = .ok ws[k]

/-- The mnemonic of an instruction: its row of R90. -/
def mnemonicOf : Instr → Op
  | .halt => .halt
  | .ld _ _ => .ld
  | .ldi _ _ => .ldi
  | .st _ => .st
  | .add _ _ _ => .add
  | .addi _ _ _ => .addi
  | .sub _ _ _ => .sub
  | .subi _ _ _ => .subi
  | .mul _ _ _ => .mul
  | .muli _ _ _ => .muli
  | .div _ _ _ => .div
  | .divi _ _ _ => .divi
  | .ceq _ _ => .ceq
  | .cgr _ _ => .cgr
  | .clo _ _ => .clo
  | .cge _ _ => .cge
  | .cle _ _ => .cle
  | .cne _ _ => .cne
  | .jmp _ => .jmp
  | .jt _ => .jt
  | .jf _ => .jf
  | .jz _ => .jz
  | .jnz _ => .jnz
  | .jn _ => .jn
  | .jnn _ => .jnn
  | .putn _ => .putn
  | .puts _ => .puts
  | .flush => .flush
  | .lbl _ => .lbl

/-- The first word of an instruction is the opcode of its mnemonic, its operand words follow
(R80, R90). -/
theorem encode_eq_opcode_cons (c : Cfg) (i : Instr) :
    ∃ operands, encode c i = c.opc.code (mnemonicOf i) :: operands := by
  cases i <;> exact ⟨_, rfl⟩

/-- An instruction has as many words as R82 says. -/
theorem encode_length (c : Cfg) (i : Instr) : (encode c i).length = instrLength i := by
  cases i
  case jmp | jt | jf | jz | jnz | jn | jnn | lbl => exact Laws.EncodeLength.named_length _ _
  case puts chars => exact Laws.EncodeLength.puts chars c
  all_goals rfl

section WordsAt

variable {c : Cfg} {rd : Nat → Except Err Nat} {a op w1 w2 w3 : Nat} {name chars : List Nat}

theorem readOne_of_wordsAt {mk : Nat → Instr} (h : WordsAt rd a [op, w1]) :
    readOne rd a mk = .ok (mk w1) :=
  readOne_eq_ok.2 ⟨w1, h 1 (by simp), rfl⟩

theorem readTwo_of_wordsAt {mk : Nat → Nat → Instr} (h : WordsAt rd a [op, w1, w2]) :
    readTwo rd a mk = .ok (mk w1 w2) :=
  readTwo_eq_ok.2 ⟨w1, h 1 (by simp), w2, h 2 (by simp), rfl⟩

theorem readThree_of_wordsAt {mk : Nat → Nat → Nat → Instr}
    (h : WordsAt rd a [op, w1, w2, w3]) : readThree rd a mk = .ok (mk w1 w2 w3) :=
  readThree_eq_ok.2 ⟨w1, h 1 (by simp), w2, h 2 (by simp), w3, h 3 (by simp), rfl⟩

/-- A name and its terminating zero are read back as the name (R86, R115). -/
theorem readNamed_of_wordsAt {mk : List Nat → Instr} (hname : NameOk c name)
    (h : WordsAt rd a (op :: (name ++ [0]))) : readNamed c rd a mk = .ok (mk name) := by
  obtain ⟨hlen, hchars⟩ := hname
  refine readNamed_eq_ok.2 ⟨name, readName_eq_ok.2 ⟨hlen, fun ch hch => (hchars ch hch).1, ?_, ?_⟩,
    rfl⟩
  · intro k hk
    have := h (k + 1) (by simp; omega)
    simpa [Nat.add_assoc, Nat.add_comm 1, List.getElem_append_left hk] using this
  · have := h (name.length + 1) (by simp)
    simpa [Nat.add_assoc, Nat.add_comm 1] using this

/-- A count and its run of cells are read back as the run (R87, R191). -/
theorem readCounted_of_wordsAt {mk : List Nat → Instr}
    (h : WordsAt rd a (op :: chars.length :: chars)) : readCounted rd a mk = .ok (mk chars) := by
  refine readCounted_eq_ok.2 ⟨chars.length, h 1 (by simp), chars,
    readWords_eq_ok.2 ⟨rfl, fun k hk => ?_⟩, rfl⟩
  have := h (k + 2) (by simpa using hk)
  simpa [Nat.add_assoc, Nat.add_comm 2] using this

/-- The operands of a well-formed instruction are read back, one format a case. -/
theorem decodeOperands_of_wordsAt {i : Instr} (hw : i.wellFormed c = true)
    (h : WordsAt rd a (encode c i)) : decodeOperands c rd a (mnemonicOf i) = .ok i := by
  cases i
  case halt | flush => rfl
  case st | putn => exact readOne_of_wordsAt h
  case ld | ldi | ceq | cgr | clo | cge | cle | cne => exact readTwo_of_wordsAt h
  case add | addi | sub | subi | mul | muli | div | divi => exact readThree_of_wordsAt h
  case jmp | jt | jf | jz | jnz | jn | jnn | lbl =>
    exact readNamed_of_wordsAt (of_decide_eq_true hw) h
  case puts => exact readCounted_of_wordsAt h

/-- The words of a well-formed instruction decode to it, in every legal configuration and at every
address (R81, R88, R90). -/
theorem decodeAt_of_wordsAt {i : Instr} (hc : c.Wf) (hw : i.wellFormed c = true)
    (h : WordsAt rd a (encode c i)) : decodeAt c rd a = .ok i := by
  refine decodeAt_eq_ok.2 ⟨_, mnemonicOf i, ?_, opOf_code hc _, decodeOperands_of_wordsAt hw h⟩
  obtain ⟨operands, henc⟩ := encode_eq_opcode_cons c i
  rw [henc] at h
  exact h 0 (Nat.succ_pos _)

end WordsAt

end Sys2Proof

namespace Sys2Proof.Machine

/-- A step whose fetch answers an instruction is that instruction's (R110, R113). -/
theorem step_of_fetch_ok {s : State} {i : Instr} (hs : s.status = .running)
    (h : fetchInstr s = .ok i) : step s = exec i s := by
  rw [step, hs, h]

/-- Words that lie in memory are found by the fetch (R53, R54). -/
theorem wordsAt_fetch {s : State} {a : Nat} {ws : List Nat} (hin : a + ws.length ≤ s.cfg.memoryMax)
    (h : ∀ (k : Nat) (hk : k < ws.length), memRead s (a + k) = ws[k]) :
    WordsAt (fetch s) a ws := by
  intro k hk
  rw [fetch_ok (by omega), h k hk]

/-- Settles O6: the fetch finds the encoded words, and they decode to the instruction. -/
theorem stepRunsTheEncodedInstruction : Obligations.StepRunsTheEncodedInstruction := by
  intro s i hc hs hw hin hmem
  exact step_of_fetch_ok hs (decodeAt_of_wordsAt hc hw (wordsAt_fetch hin hmem))

/-!
SUPPORT. Where the pc stands after an instruction: a jump is its template on the name and the
condition of R171, every other instruction but HALT advances by its length.
-/

/-- The run goes on at the next sequential address, `len` words on (R116). -/
abbrev Advances (len : Nat) (s t : State) : Prop :=
  t.status = s.status ∧ t.pc = s.pc + len ∧ t.pc < s.cfg.memoryMax

section PcAfter

variable {s t : State} {i : Instr}

theorem arithRR_advances {f : Nat → Nat → Except Err Int} {ra rb rd : Nat}
    (h : arithRR f ra rb rd s = .ok t) : Advances 4 s t := by
  obtain ⟨-, -, d, res, -, -, -, -, hn, rfl⟩ := arithRR_eq_ok.1 h
  exact ⟨rfl, rfl, hn⟩

theorem arithRI_advances {f : Nat → Nat → Except Err Int} {ra imm rd : Nat}
    (h : arithRI f ra imm rd s = .ok t) : Advances 4 s t := by
  obtain ⟨-, d, res, -, -, -, hn, rfl⟩ := arithRI_eq_ok.1 h
  exact ⟨rfl, rfl, hn⟩

theorem compareRegs_advances {rel : Nat → Nat → Bool} {ra rb : Nat}
    (h : compareRegs rel ra rb s = .ok t) : Advances 3 s t := by
  obtain ⟨a, b, -, -, hn, rfl⟩ := compareRegs_eq_ok.1 h
  exact ⟨rfl, rfl, hn⟩

/-- A jump is the template of R170 on its name and the condition of R171. -/
theorem exec_of_jumpOf {name : List Nat} {taken : Bool} (h : jumpOf s i = some (name, taken)) :
    exec i s = conclude s (jump taken name s) ∧ instrLength i = 2 + name.length := by
  cases i
  case jmp | jz | jnz | jn | jnn => cases h; exact ⟨rfl, rfl⟩
  case jt =>
    cases h
    exact ⟨by simp [exec, execJt, takenT], rfl⟩
  case jf =>
    cases h
    exact ⟨by cases hcond : s.cond <;> simp [exec, execJf, takenF, hcond], rfl⟩
  all_goals cases h

/-- Everything an instruction that is neither a jump nor HALT does to the pc and the run status:
it takes a fault, or it goes on at the word after its own last word (R82, R116). -/
theorem exec_advances (hj : jumpOf s i = none) (hhalt : i ≠ .halt) (h : exec i s = .next t) :
    (∃ e, t = takeFault e s) ∨ Advances (instrLength i) s t := by
  cases i
  case halt => exact absurd rfl hhalt
  case jmp | jt | jf | jz | jnz | jn | jnn => cases hj
  case ld =>
    refine (execLd_cases h).imp_right ?_
    rintro ⟨d, a, -, -, hn, rfl⟩
    exact ⟨rfl, rfl, hn⟩
  case ldi =>
    refine (execLdi_cases h).imp_right ?_
    rintro ⟨d, -, hn, rfl⟩
    exact ⟨rfl, rfl, hn⟩
  case st =>
    refine (execSt_cases h).imp_right ?_
    rintro ⟨r, -, hn, rfl⟩
    exact ⟨writeAppend_status _ s, rfl, hn⟩
  case add | sub | mul | div => exact (conclude_fault_or_ok h).imp_right arithRR_advances
  case addi | subi | muli | divi => exact (conclude_fault_or_ok h).imp_right arithRI_advances
  case ceq | cgr | clo | cge | cle | cne =>
    exact (conclude_fault_or_ok h).imp_right compareRegs_advances
  case putn =>
    refine (execPutn_cases h).imp_right ?_
    rintro ⟨r, -, hn, rfl⟩
    exact ⟨rfl, rfl, hn⟩
  case puts =>
    refine (execPuts_cases h).imp_right ?_
    rintro ⟨hn, rfl⟩
    exact ⟨rfl, rfl, hn⟩
  case flush =>
    refine (execFlush_cases h).imp_right ?_
    rintro ⟨hn, rfl⟩
    exact ⟨rfl, rfl, hn⟩
  case lbl =>
    refine (execLbl_cases h).imp_right ?_
    rintro ⟨-, hn, rfl⟩
    exact ⟨rfl, rfl, hn⟩

/-- Everything an instruction can do to the pc: a fault and HALT leave it, a taken jump sets it to
the address of an entry with its name, all else advances (R111, R116, R170, R224). -/
theorem exec_pc_cases (h : exec i s = .next t) :
    (∃ e, t = takeFault e s) ∨ (i = .halt ∧ t = setStatus .halted s) ∨
    (∃ name, jumpOf s i = some (name, true) ∧ ∃ l ∈ s.labels, l.name = name ∧
      t = setPc l.address s) ∨
    ((∀ name, jumpOf s i ≠ some (name, true)) ∧ Advances (instrLength i) s t) := by
  rcases hj : jumpOf s i with _ | ⟨name, taken⟩
  · by_cases hhalt : i = .halt
    · subst hhalt; cases h
      exact .inr (.inl ⟨rfl, rfl⟩)
    · exact (exec_advances hj hhalt h).imp_right fun ha => .inr (.inr ⟨by simp, ha⟩)
  · obtain ⟨hx, hlen⟩ := exec_of_jumpOf hj
    rw [hx] at h
    refine (conclude_fault_or_ok h).imp_right fun h => .inr ?_
    rcases jump_eq_ok.1 h with ⟨rfl, a, ha, rfl⟩ | ⟨rfl, hn, rfl⟩
    · obtain ⟨l, hl, hname, rfl⟩ := resolve_ok_mem ha
      exact .inl ⟨name, rfl, l, hl, hname, rfl⟩
    · rw [hlen]
      exact .inr ⟨by simp, rfl, rfl, hn⟩

end PcAfter

/-- Settles O52: the four ways the pc can go, told apart by the run status. -/
theorem pcAfterAnInstruction : Obligations.PcAfterAnInstruction := by
  intro i s t hs h
  rcases exec_pc_cases h with ⟨e, rfl⟩ | ⟨-, rfl⟩ | ⟨name, hj, l, hl, hname, rfl⟩ |
    ⟨hj, hst, hpc, hn⟩
  · exact ⟨fun hrun => by simp at hrun, fun _ => rfl⟩
  · exact ⟨fun hrun => by simp at hrun, fun _ => rfl⟩
  · exact ⟨fun _ => .inl ⟨name, hj, l, hl, hname, rfl⟩, fun hstop => absurd hs hstop⟩
  · rw [encode_length]
    exact ⟨fun _ => .inr ⟨hj, hpc, hn⟩, fun hstop => absurd (hst.trans hs) hstop⟩

/-!
SUPPORT. What each piece of state is left as, over all instructions and steps.
-/

/-- PUTN, PUTS and FLUSH emit bytes and write the pc, or take a fault (R190 to R193). -/
theorem exec_output_cases {rs : Nat} {chars : List Nat} {s t : State}
    (h : exec (.putn rs) s = .next t ∨ exec (.puts chars) s = .next t ∨
      exec .flush s = .next t) :
    (∃ e, t = takeFault e s) ∨ ∃ bs p, t = setPc p (emit bs s) := by
  rcases h with h | h | h
  · exact (execPutn_cases h).imp_right fun ⟨_, _, _, ht⟩ => ⟨_, _, ht⟩
  · exact (execPuts_cases h).imp_right fun ⟨_, ht⟩ => ⟨_, _, ht⟩
  · exact (execFlush_cases h).imp_right fun ⟨_, ht⟩ => ⟨_, _, ht⟩

/-- Settles O44: an output instruction that completes appends to the output and writes the pc, one
that does not takes a fault. -/
theorem outputFrame : Obligations.OutputFrame := by
  intro rs chars s t h
  rcases exec_output_cases h with ⟨e, rfl⟩ | ⟨bs, p, rfl⟩
  · exact ⟨rfl, rfl, rfl, memRead_takeFault e s, rfl, rfl, by simp, .inr ⟨e, rfl⟩,
      rfl, rfl⟩
  · exact ⟨rfl, rfl, rfl, fun _ => rfl, rfl, rfl, ⟨bs, rfl⟩, .inl ⟨rfl, rfl⟩,
      rfl, rfl⟩

/-- Settles O51: the writes of an instruction are those of its family, whose name every case of
`exec_cases` carries. -/
theorem onlyItsFamilyWrites : Obligations.OnlyItsFamilyWrites := by
  intro i s t h
  rcases exec_cases h with ⟨e, rfl⟩ | ⟨hf, rfl⟩ | ⟨d, v, p, hf, rfl⟩ | ⟨v, p, hf, rfl⟩ |
    ⟨d, res, p, hf, rfl⟩ | ⟨b, p, hf, rfl⟩ | ⟨p, hf, rfl⟩ | ⟨bs, p, hf, rfl⟩ |
    ⟨name, p, q, hf, rfl⟩
  · simp [SameMachine]
  all_goals simp [hf, SameMachine]

/-- The cursor moves on by one cell or, at the last one, stays (R57). -/
theorem writeAppend_wcur_bounds (v : Nat) (s : State) :
    s.wcur ≤ (writeAppend v s).wcur ∧ (writeAppend v s).wcur ≤ s.wcur + 1 := by
  rw [writeAppend_wcur]
  split <;> omega

/-- No instruction shortens the label table or the output, nor moves the cursor other than one cell
on (R34, R35, R36). -/
theorem exec_tables_only_grow {i : Instr} {s t : State} (h : exec i s = .next t) :
    s.labels <+: t.labels ∧ s.out <+: t.out ∧ s.wcur ≤ t.wcur ∧ t.wcur ≤ s.wcur + 1 := by
  rcases exec_cases h with ⟨e, rfl⟩ | ⟨-, rfl⟩ | ⟨d, v, p, -, rfl⟩ | ⟨v, p, -, rfl⟩ |
    ⟨d, res, p, -, rfl⟩ | ⟨b, p, -, rfl⟩ | ⟨p, -, rfl⟩ | ⟨bs, p, -, rfl⟩ | ⟨name, p, q, -, rfl⟩
  pick_goal 4 -- ST, whose cursor saturates
  · exact ⟨by simp, by simp, writeAppend_wcur_bounds v s⟩
  all_goals simp

/-- Settles O50: a fault met while fetching touches neither table nor cursor, and an instruction
only lets them grow. -/
theorem tablesOnlyGrow : Obligations.TablesOnlyGrow := by
  intro s t h
  obtain ⟨-, ⟨i, -, hx⟩ | ⟨e, -, rfl⟩⟩ := step_cases h
  · exact exec_tables_only_grow hx
  · simp

/-!
SUPPORT. The boundary: the reset state and the read accessors (spec/70_reset_and_hazards.md rules
R250 and R258).
-/

theorem resetOf_regs_get (c : Cfg) (n : Nat) (k : Fin 8) : (State.resetOf c n).regs.get k = 0 := by
  fin_cases k <;> rfl

/-- The reset state of a legal configuration meets the invariant: both regions of a memory of at
least two words are inhabited, so pc and cursor have a place (R5, R6, R38). -/
theorem resetOf_inv {c : Cfg} (hc : c.Wf) (n : Nat) : (State.resetOf c n).Inv := by
  have ⟨_, _, hmax, _⟩ := hc
  have hcode : c.codeStart < c.memoryMax := by unfold Cfg.codeStart; omega
  have hdata : 0 < c.dataEnd := by unfold Cfg.dataEnd; omega
  refine ⟨hc, fun k => ?_, ⟨le_rfl, hcode⟩, ⟨resetOf_memory_wf c n, by simp [State.resetOf]⟩, hdata,
    ⟨Nat.zero_le _, by simp [State.resetOf]⟩, by simp [State.resetOf]⟩
  rw [resetOf_regs_get]; exact Nat.two_pow_pos _

/-- Settles O47: CFG_REF is legal. -/
theorem resetMeetsTheInvariant : Obligations.ResetMeetsTheInvariant :=
  ⟨resetOf_inv (by decide) 0, fun _ n hc => resetOf_inv hc n⟩

/-- Settles O57: reset leaves `State.resetOf` of the configuration with one more reset counted. -/
theorem resetLeavesTheResetState : Obligations.ResetLeavesTheResetState := by
  intro s
  exact ⟨State.resetOf s.cfg (s.launch + 1), rfl, resetOf_regs_get _ _, rfl, rfl, rfl, rfl, rfl,
    rfl, rfl, rfl, rfl, rfl, rfl⟩

/-- `ReadMem` answers the first `k` words of memory (R258). -/
theorem readMem_of_le {k : Nat} {s : State} (hk : k ≤ s.cfg.memoryMax) :
    readMem k s = .ok ((List.range k).map (memRead s)) := by
  refine readWords_eq_ok.2 ⟨by simp, fun j hj => ?_⟩
  have hlt : j < k := by simpa using hj
  rw [Nat.zero_add, fetch_ok (by omega)]
  simp

theorem flagNumeral_eq (f : Flag) :
    flagNumeral f = if f = .zero then 1 else if f = .neg then 2 else 0 := by
  cases f <;> rfl

/-- Settles O59: `fetch` and `readMem` inside and outside memory, and the tables of numerals and
codes, one row a case. -/
theorem accessorsShowTheState : Obligations.AccessorsShowTheState := by
  intro s
  refine ⟨fun a ha => fetch_ok ha, fun a ha => fetch_error ha, fun k hk => ?_, rfl, rfl, rfl,
    flagNumeral_eq s.flag, rfl, rfl, ?_⟩
  · exact ⟨_, readMem_of_le hk, by simp, by simp⟩
  · rw [readErr]
    rcases s.err with _ | e
    · rfl
    · cases e <;> rfl

end Sys2Proof.Machine

/-!
SUPPORT. Fetching across the end of memory (spec/20_memory.md rule R53): the operands of a
fixed-length instruction that do not all lie in memory are not read.
-/

namespace Sys2Proof.Machine

/-- Reading on from an address of memory or its end fails at the end, if reading on from every word
of memory does (R53). -/
theorem fetch_bind_error_at_end {α : Type} {s : State} {a : Nat} {f : Nat → Except Err α}
    (ha : a ≤ s.cfg.memoryMax)
    (hf : a < s.cfg.memoryMax → f (memRead s a) = .error (.outOfBounds s.cfg.memoryMax)) :
    (fetch s a >>= f) = .error (.outOfBounds s.cfg.memoryMax) := by
  rcases Nat.lt_or_eq_of_le ha with hlt | rfl
  · rw [fetch_ok hlt, bind_ok, hf hlt]
  · rw [fetch_error le_rfl, bind_error]

section MissingOperand

variable {s : State} {a : Nat}

theorem readOne_fetch_error {mk : Nat → Instr} (ha : a < s.cfg.memoryMax)
    (hout : s.cfg.memoryMax ≤ a + 1) :
    readOne (fetch s) a mk = .error (.outOfBounds s.cfg.memoryMax) :=
  fetch_bind_error_at_end ha fun hin => absurd hout (Nat.not_le.2 hin)

theorem readTwo_fetch_error {mk : Nat → Nat → Instr} (ha : a < s.cfg.memoryMax)
    (hout : s.cfg.memoryMax ≤ a + 2) :
    readTwo (fetch s) a mk = .error (.outOfBounds s.cfg.memoryMax) :=
  fetch_bind_error_at_end ha fun h1 => readOne_fetch_error h1 hout

theorem readThree_fetch_error {mk : Nat → Nat → Nat → Instr} (ha : a < s.cfg.memoryMax)
    (hout : s.cfg.memoryMax ≤ a + 3) :
    readThree (fetch s) a mk = .error (.outOfBounds s.cfg.memoryMax) :=
  fetch_bind_error_at_end ha fun h1 => readTwo_fetch_error h1 hout

/-- The operands of a fixed-length format, one of which lies beyond memory, one format a case
(R53, R81). -/
theorem decodeOperands_fetch_error {o : Op} {n : Nat} (ha : a < s.cfg.memoryMax)
    (hn : fixedOperands o = some n) (hout : s.cfg.memoryMax ≤ a + n) :
    decodeOperands s.cfg (fetch s) a o = .error (.outOfBounds s.cfg.memoryMax) := by
  cases o <;> cases hn
  case halt | flush => exact absurd hout (Nat.not_le.2 ha)
  case st | putn => exact readOne_fetch_error ha hout
  case ld | ldi | ceq | cgr | clo | cge | cle | cne => exact readTwo_fetch_error ha hout
  case add | addi | sub | subi | mul | muli | div | divi => exact readThree_fetch_error ha hout

end MissingOperand

/-- Settles O13: the reading of the operands meets the end of memory. -/
theorem missingOperandWordFaults : Obligations.MissingOperandWordFaults := by
  intro s o n hc hs hpc ho hn hout
  refine step_of_fetch_error hs ?_
  rw [fetchInstr_of_opcode hc hpc ho]
  exact decodeOperands_fetch_error hpc hn hout

/-!
SUPPORT. The write of ST (spec/20_memory.md rule R57, spec/41_load_store.md rule R133): what it
leaves unchanged, and the cells it can reach.
-/

/-- `WriteAppend` writes the memory and the cursor alone (R57). -/
theorem writeAppend_eq (v : Nat) (s : State) :
    writeAppend v s = { s with
      mem := memInsert s.wcur v s.mem
      wcur := if s.wcur < s.cfg.dataEnd - 1 then s.wcur + 1 else s.wcur } := by
  unfold writeAppend
  split <;> rfl

/-- A store leaves the cells off the cursor as they were (R52, R57). -/
theorem memRead_writeAppend_of_ne {v a : Nat} {s : State} (ha : a ≠ s.wcur) :
    memRead (writeAppend v s) a = memRead s a := by
  rw [memRead_writeAppend, if_neg ha]

/-- ST of a register with room to advance completes (R133). -/
theorem exec_st_of_room {s : State} (r : Fin 8) (hn : s.pc + 2 < s.cfg.memoryMax) :
    exec (.st r) s = .next (setPc (s.pc + 2) (writeAppend (s.regs.get r) s)) := by
  rw [exec, execSt, regIdx_val, bind_ok, nextPc_ok hn, bind_ok, conclude_ok, getReg]

/-- Settles O22: ST with room to advance is `WriteAppend` and the advance. -/
theorem stAppendsAtTheCursor : Obligations.StAppendsAtTheCursor := by
  intro s r hn
  refine ⟨_, exec_st_of_room r hn, ?_, fun _ ha => memRead_writeAppend_of_ne ha, ?_⟩
  · rw [memRead_setPc, memRead_writeAppend, if_pos rfl]
  · rw [writeAppend_eq]
    rfl

/-- Settles O40: an ST that completes is `WriteAppend` and the advance, one that does not takes a
fault. -/
theorem storeFrame : Obligations.StoreFrame := by
  intro rs s t h
  rcases execSt_cases h with ⟨e, rfl⟩ | ⟨r, -, -, rfl⟩
  · exact ⟨rfl, rfl, rfl, fun a _ => memRead_takeFault e s a, rfl, rfl, .inr ⟨e, rfl⟩, rfl, rfl⟩
  · exact ⟨writeAppend_regs _ s, writeAppend_cond _ s, writeAppend_flag _ s,
      fun _ ha => memRead_writeAppend_of_ne ha, writeAppend_labels _ s, writeAppend_out _ s,
      .inl ⟨writeAppend_status _ s, writeAppend_err _ s⟩, writeAppend_cfg _ s,
      writeAppend_launch _ s⟩

/-- No instruction writes a cell other than the one at the cursor (R52, R57). -/
theorem exec_memRead_of_ne_wcur {i : Instr} {s t : State} (h : exec i s = .next t) {a : Nat}
    (ha : a ≠ s.wcur) : memRead t a = memRead s a := by
  rcases exec_cases h with ⟨e, rfl⟩ | ⟨-, rfl⟩ | ⟨d, v, p, -, rfl⟩ | ⟨v, p, -, rfl⟩ |
    ⟨d, res, p, -, rfl⟩ | ⟨b, p, -, rfl⟩ | ⟨p, -, rfl⟩ | ⟨bs, p, -, rfl⟩ | ⟨name, p, q, -, rfl⟩
  pick_goal 4 -- ST, the one write of memory
  · exact memRead_writeAppend_of_ne ha
  all_goals rfl

/-- The cursor stands below the code region: user data ends where code starts (R6, R34). -/
theorem State.Inv.wcur_lt_codeStart {s : State} (hi : s.Inv) : s.wcur < s.cfg.codeStart := by
  obtain ⟨-, -, -, -, hcur, -⟩ := hi
  exact hcur

/-- Settles O49: an instruction writes memory at the cursor alone, which stands below the code
region; a fault met while fetching writes no cell. -/
theorem codeRegionIsNeverWritten : Obligations.CodeRegionIsNeverWritten := by
  intro s t hi h a ha
  obtain ⟨-, ⟨i, -, hx⟩ | ⟨e, -, rfl⟩⟩ := step_cases h
  · exact exec_memRead_of_ne_wcur hx (hi.wcur_lt_codeStart.trans_le ha).ne'
  · exact memRead_takeFault e s a

/-!
SUPPORT. A run of stores: `WriteAppend` of each word of a list in turn (R57, R264).
-/

/-- The state after `WriteAppend` of each word of `vs`, the first one first. -/
def appendAll (vs : List Nat) (s : State) : State := vs.foldl (fun u v => writeAppend v u) s

@[simp] theorem appendAll_nil (s : State) : appendAll [] s = s := rfl

@[simp] theorem appendAll_concat (vs : List Nat) (v : Nat) (s : State) :
    appendAll (vs ++ [v]) s = writeAppend v (appendAll vs s) :=
  List.foldl_concat ..

@[simp] theorem appendAll_cfg (vs : List Nat) (s : State) : (appendAll vs s).cfg = s.cfg := by
  induction vs using List.reverseRecOn with
  | nil => rfl
  | append_singleton vs v ih => rw [appendAll_concat, writeAppend_cfg, ih]

section AppendAll

variable {s : State} (hcur : s.wcur = 0)
include hcur

/-- From cell 0 the cursor counts the stores, up to the last cell of user data (R34, R57). -/
theorem appendAll_wcur (vs : List Nat) :
    (appendAll vs s).wcur = min vs.length (s.cfg.dataEnd - 1) := by
  induction vs using List.reverseRecOn with
  | nil => simp [hcur]
  | append_singleton vs v ih =>
    rw [appendAll_concat, writeAppend_wcur, appendAll_cfg, ih, List.length_append,
      List.length_singleton]
    split <;> omega

/-- A store after `vs` writes the cell numbered by their count, or the last cell of user data. -/
theorem memRead_appendAll_concat (vs : List Nat) (v a : Nat) :
    memRead (appendAll (vs ++ [v]) s) a =
      if a = min vs.length (s.cfg.dataEnd - 1) then v else memRead (appendAll vs s) a := by
  rw [appendAll_concat, memRead_writeAppend, appendAll_wcur hcur]

/-- A word stored before the cursor saturates is in the cell of its own number: no later store
reaches that cell (R57). -/
theorem memRead_appendAll_of_lt {vs : List Nat} {k : Nat} (hk : k < vs.length)
    (hlast : k < s.cfg.dataEnd - 1) : memRead (appendAll vs s) k = vs[k] := by
  induction vs using List.reverseRecOn with
  | nil => cases hk
  | append_singleton vs v ih =>
    rw [memRead_appendAll_concat hcur]
    rcases Nat.lt_succ_iff_lt_or_eq.1 (List.length_append ▸ hk) with hold | rfl
    · rw [if_neg (by omega), ih hold, List.getElem_append_left hold]
    · rw [if_pos (by omega), List.getElem_concat_length rfl]

/-- Once the words fill user data, its last cell holds the latest of them (R57). -/
theorem memRead_appendAll_last {vs : List Nat} {v : Nat} (hfull : s.cfg.dataEnd ≤ vs.length)
    (hv : vs.getLast? = some v) : memRead (appendAll vs s) (s.cfg.dataEnd - 1) = v := by
  obtain ⟨ws, rfl⟩ := List.getLast?_eq_some_iff.1 hv
  rw [List.length_append, List.length_singleton] at hfull
  rw [memRead_appendAll_concat hcur, if_pos (by omega)]

end AppendAll

/-- Settles O53: the cursor counts the stores until it saturates, and each store writes the cell it
stands on. -/
theorem storesFillThenSaturate : Obligations.StoresFillThenSaturate := by
  intro s vs hcur _
  exact ⟨appendAll_wcur hcur vs, fun k hk hlast => memRead_appendAll_of_lt hcur hk hlast,
    fun v hfull hv => memRead_appendAll_last hcur hfull hv⟩

/-!
SUPPORT. The load of a user-data cell (spec/41_load_store.md rule R131): the address of the cell is
its own offset word.
-/

/-- Half of memory is addressed without the sign bit (R5, R6). -/
theorem dataEnd_le_signBit {c : Cfg} (hc : c.Wf) : c.dataEnd ≤ 2 ^ (c.w - 1) := by
  obtain ⟨hw, -, -, hmax, -⟩ := hc
  have hpow : 2 ^ c.w = 2 * 2 ^ (c.w - 1) := by rw [← pow_succ', Nat.sub_add_cancel (by omega)]
  unfold Cfg.dataEnd
  omega

/-- The address LD forms of a user-data cell's own address (R85, R131; decision D15). -/
theorem loadAddr_of_lt_dataEnd {s : State} {a : Nat} (hc : s.cfg.Wf) (ha : a < s.cfg.dataEnd) :
    loadAddr a s = .ok a := by
  have hsext : sext s.cfg.w a = a := if_pos (ha.trans_le (dataEnd_le_signBit hc))
  have haddr : s.cfg.readBase + sext s.cfg.w a = a := by rw [hsext, Cfg.readBase, zero_add]
  have hin : ¬ ((a : Int) < s.cfg.dataStart ∨ (s.cfg.dataEnd : Int) ≤ a) := by
    unfold Cfg.dataStart
    omega
  rw [loadAddr, haddr, if_neg hin, Int.toNat_natCast]

/-- LD of a user-data cell with room to advance completes (R131). -/
theorem exec_ld_of_room {s : State} (d : Fin 8) {a : Nat} (hc : s.cfg.Wf)
    (ha : a < s.cfg.dataEnd) (hn : s.pc + 3 < s.cfg.memoryMax) :
    exec (.ld d a) s = .next (setPc (s.pc + 3) (setReg d (memRead s a) s)) := by
  rw [exec, execLd, regIdx_val, bind_ok, loadAddr_of_lt_dataEnd hc ha, bind_ok, nextPc_ok hn,
    bind_ok, conclude_ok]

/-- Settles O54: ST leaves the word in the cell at the cursor, a user-data cell, which LD reads. -/
theorem loadAfterStoreReturnsTheWord : Obligations.LoadAfterStoreReturnsTheWord := by
  intro s r d hc hcur hn
  refine ⟨_, _, exec_st_of_room r (by omega), exec_ld_of_room d ?_ ?_ ?_, ?_⟩
  · simpa using hc
  · simpa using hcur
  · simpa using hn
  · simp

end Sys2Proof.Machine

/-!
SUPPORT. The encoding in both directions (spec/30_encoding.md rules R81, R82, R88, R90): a list of
words read from its head, and the words a decoder that answers has read.
-/

namespace Sys2Proof

open Machine (Err)

/-- Read from a list, the words at its head are found from address 0 on, whatever follows them. -/
theorem wordsAt_listWord_append (ws rest : List Nat) : WordsAt (listWord (ws ++ rest)) 0 ws := by
  intro k hk
  rw [Nat.zero_add, listWord, List.getElem?_append_left hk, List.getElem?_eq_getElem hk]

/-- Settles O1: the words at the head of the list are those of the instruction. -/
theorem decodeOfEncodeIsTheInstruction : Obligations.DecodeOfEncodeIsTheInstruction := by
  intro c i rest hc hw
  exact decodeAt_of_wordsAt hc hw (wordsAt_listWord_append _ rest)

/-- The words of an instruction and nothing else decode to it. -/
theorem decodeWords_encode {c : Cfg} {i : Instr} (hc : c.Wf) (hw : i.wellFormed c = true) :
    decodeWords c (encode c i) = .ok i := by
  simpa using decodeOfEncodeIsTheInstruction c i [] hc hw

/-- Settles O4: each list of words is the encoding of its instruction in CFG_REF. -/
theorem wordsOfTheSpecDecode : Obligations.WordsOfTheSpecDecode := by
  have hread {i : Instr} (hw : i.wellFormed Cfg.ref = true) :
      decodeWords Cfg.ref (encode Cfg.ref i) = .ok i := decodeWords_encode (by decide) hw
  exact ⟨hread (i := .halt) rfl, hread (i := .ld 3 5) rfl, hread (i := .st 2) rfl,
    hread (i := .sub 0 1 2) rfl, hread (i := .addi 0 1 0) rfl, hread (i := .ceq 0 1) rfl,
    hread (i := .jf [108, 111, 111, 112]) rfl, hread (i := .puts [79, 75]) rfl,
    hread (i := .lbl []) rfl⟩

section WordsRead

variable {c : Cfg} {rd : Nat → Except Err Nat} {a w : Nat} {ws : List Nat} {i : Instr}

theorem wordsAt_nil : WordsAt rd a [] := fun _ hk => absurd hk (Nat.not_lt_zero _)

/-- The first word is at the address, the others follow it. -/
theorem wordsAt_cons (hw : rd a = .ok w) (hws : WordsAt rd (a + 1) ws) : WordsAt rd a (w :: ws)
  | 0, _ => hw
  | k + 1, hk => by
    have := hws k (Nat.lt_of_succ_lt_succ hk)
    rwa [Nat.add_right_comm] at this

/-- A run of words and the one word after it. -/
theorem wordsAt_concat (hws : WordsAt rd a ws) (hw : rd (a + ws.length) = .ok w) :
    WordsAt rd a (ws ++ [w]) := by
  intro k hk
  rcases Nat.lt_succ_iff_lt_or_eq.1 (List.length_append ▸ hk) with hold | rfl
  · rw [List.getElem_append_left hold, hws k hold]
  · rw [List.getElem_concat_length rfl, hw]

/-- A name that was read stands there with its terminating zero (R86, R115). -/
theorem wordsAt_of_readName {start room : Nat} {name : List Nat}
    (h : readName rd start room a = .ok name) : WordsAt rd a (name ++ [0]) := by
  obtain ⟨-, -, hchars, hzero⟩ := readName_eq_ok.1 h
  exact wordsAt_concat hchars hzero

/-- Operands that were read stand after their opcode as the encoder writes them, one format a case
(R81). -/
theorem wordsAt_of_decodeOperands {o : Op} (hop : rd a = .ok (c.opc.code o))
    (h : decodeOperands c rd a o = .ok i) : WordsAt rd a (encode c i) := by
  cases o
  case halt | flush => cases h; exact wordsAt_cons hop wordsAt_nil
  case st | putn =>
    obtain ⟨w1, h1, rfl⟩ := readOne_eq_ok.1 h
    exact wordsAt_cons hop (wordsAt_cons h1 wordsAt_nil)
  case ld | ldi | ceq | cgr | clo | cge | cle | cne =>
    obtain ⟨w1, h1, w2, h2, rfl⟩ := readTwo_eq_ok.1 h
    exact wordsAt_cons hop (wordsAt_cons h1 (wordsAt_cons h2 wordsAt_nil))
  case add | addi | sub | subi | mul | muli | div | divi =>
    obtain ⟨w1, h1, w2, h2, w3, h3, rfl⟩ := readThree_eq_ok.1 h
    exact wordsAt_cons hop (wordsAt_cons h1 (wordsAt_cons h2 (wordsAt_cons h3 wordsAt_nil)))
  case jmp | jt | jf | jz | jnz | jn | jnn | lbl =>
    obtain ⟨name, hname, rfl⟩ := readNamed_eq_ok.1 h
    exact wordsAt_cons hop (wordsAt_of_readName hname)
  case puts =>
    obtain ⟨n, hn, chars, hchars, rfl⟩ := readCounted_eq_ok.1 h
    obtain ⟨rfl, hcells⟩ := readWords_eq_ok.1 hchars
    exact wordsAt_cons hop (wordsAt_cons hn hcells)

end WordsRead

/-- Settles O2: the opcode word read is that of the mnemonic it selects, and the operands read
follow it as its format has them. -/
theorem decodedWordsAreTheEncoding : Obligations.DecodedWordsAreTheEncoding := by
  intro c rd a i h
  obtain ⟨word, o, hword, ho, hops⟩ := decodeAt_eq_ok.1 h
  rw [← opOf_some ho] at hword
  exact wordsAt_of_decodeOperands hword hops

/-- Settles O3: every operand, character and count that was read is a word. -/
theorem decodedInstructionIsWellFormed : Obligations.DecodedInstructionIsWellFormed :=
  fun _ _ _ _ hrd h => decodeAt_wellFormed hrd h

end Sys2Proof

/-!
SUPPORT. Operand words as the instructions use them (spec/30_encoding.md rules R82, R84, R85, R87):
the signed offset of LD outside user data, the whole immediate of LDI, the name a jump not taken
skips, the cells of PUTS.
-/

namespace Sys2Proof.Machine

/-- An offset word that is no user-data address is, read as two's complement, below user data or
past its end (R85, R131; decision D15). -/
theorem sext_outside_userData {c : Cfg} {off : Nat} (hoff : IsWord c.w off)
    (hout : c.dataEnd ≤ off) : sext c.w off < 0 ∨ (c.dataEnd : Int) ≤ sext c.w off := by
  unfold sext
  split
  · exact .inr (Int.ofNat_le.2 hout)
  · refine .inl (Int.sub_neg_of_lt ?_)
    exact_mod_cast hoff

/-- The address LD refuses is the signed offset itself, READ_BASE being 0 (R131). -/
theorem loadAddr_error {s : State} {off : Nat}
    (h : sext s.cfg.w off < 0 ∨ (s.cfg.dataEnd : Int) ≤ sext s.cfg.w off) :
    loadAddr off s = .error (.offsetOutOfBounds (sext s.cfg.w off)) := by
  have haddr : s.cfg.readBase + sext s.cfg.w off = sext s.cfg.w off := zero_add _
  rw [loadAddr, haddr]
  exact if_pos h

/-- LD of an address outside user data takes the fault of its address check, at any pc (R131). -/
theorem exec_ld_of_loadAddr_error {s : State} (d : Fin 8) {off : Nat} {e : Err}
    (h : loadAddr off s = .error e) : exec (.ld d off) s = .next (takeFault e s) := by
  rw [exec, execLd, regIdx_val, bind_ok, h, bind_error, conclude_error]

/-- Settles O20: the signed offset lies outside user data, and the address check says so. -/
theorem ldOutsideUserDataFaults : Obligations.LdOutsideUserDataFaults := by
  intro s d off _ hoff hout
  exact exec_ld_of_loadAddr_error d (loadAddr_error (sext_outside_userData hoff hout))

/-- Settles O21: with room to advance no check of LDI fails, and its writes are one register and
the pc. -/
theorem ldiLoadsTheImmediate : Obligations.LdiLoadsTheImmediate := by
  intro s d imm hn
  rw [exec, execLdi, regIdx_val, bind_ok, nextPc_ok hn, bind_ok, conclude_ok]
  rfl

/-- A jump not taken, with room to advance, goes on after its name, whatever the label table holds
(R170, R171). -/
theorem exec_of_jump_not_taken {s : State} {i : Instr} {name : List Nat}
    (hj : jumpOf s i = some (name, false)) (hn : s.pc + (2 + name.length) < s.cfg.memoryMax) :
    exec i s = .next (setPc (s.pc + (2 + name.length)) s) := by
  obtain ⟨hx, -⟩ := exec_of_jumpOf hj
  rw [hx, jump_eq_ok.2 (.inr ⟨rfl, hn, rfl⟩), conclude_ok]

/-- Settles O31: under the opposite of its condition each of the six jumps is not taken. -/
theorem untakenJumpSkipsItsName : Obligations.UntakenJumpSkipsItsName := by
  intro s name hn
  refine ⟨fun h => ?_, fun h => ?_, fun h => ?_, fun h => ?_, fun h => ?_, fun h => ?_⟩
  all_goals exact exec_of_jump_not_taken (by simp [jumpOf, h]) hn

/-- The byte of a cell is its value modulo 256 (R191; decision D17). -/
theorem cellByte_eq_ofNat_mod (ch : Nat) : cellByte ch = BitVec.ofNat 8 (ch % 256) :=
  BitVec.eq_of_toNat_eq (by simp [cellByte])

/-- Settles O35: with room to advance PUTS emits the bytes of its cells and goes on after the
run. -/
theorem putsEmitsItsCells : Obligations.PutsEmitsItsCells := by
  intro s chars hn
  rw [exec, execPuts, nextPc_ok hn, bind_ok, conclude_ok, funext cellByte_eq_ofNat_mod]
  rfl

end Sys2Proof.Machine

/-!
SUPPORT. The fault a chain of checks raises (spec/60_exceptions.md rule R222): the first check that
fails, in the order in which an instruction makes them, or none, and then the run goes on.
-/

namespace Sys2Proof.Machine

/-- The fault a check raises, if it fails. -/
def faultOf {α : Type} : Except Err α → Option Err
  | .ok _ => none
  | .error e => some e

/-- The fault of the first register operand above 7, in stream order: check (3) of R222. -/
def registerFault (vs : List Nat) : Option Err :=
  (vs.find? fun v => decide (7 < v)).map .registerOutOfBounds

/-- The checks of an instruction on `s` end in `r`: a failed one raised exactly the fault `c`, and
where none failed the writes leave the run status and the recorded fault as they were. -/
abbrev ChecksTo (s : State) (c : Option Err) (r : Except Err State) : Prop :=
  faultOf r = c ∧ ∀ t, r = .ok t → t.status = s.status ∧ t.err = s.err

section Checks

variable {s : State} {i : Instr} {c c' own : Option Err}

theorem checksTo_ok {t : State} (hst : t.status = s.status) (herr : t.err = s.err) :
    ChecksTo s none (.ok t) :=
  ⟨rfl, fun _ h => by cases h; exact ⟨hst, herr⟩⟩

/-- A check before the others goes first: its fault, or else theirs. -/
theorem checksTo_bind {α : Type} {x : Except Err α} {f : α → Except Err State}
    (hx : faultOf x = c) (hf : ∀ a, ChecksTo s c' (f a)) :
    ChecksTo s (c.or c') (x >>= f) := by
  subst hx
  cases x with
  | ok a => exact hf a
  | error e => exact ⟨rfl, nofun⟩

/-- The register check of an operand, before those of the operands `vs` that follow it (R114). -/
theorem checksTo_regIdx {v : Nat} {vs : List Nat} {f : Fin 8 → Except Err State}
    (hf : ∀ d : Fin 8, v = d.val → ChecksTo s ((registerFault vs).or c) (f d)) :
    ChecksTo s ((registerFault (v :: vs)).or c) (regIdx v >>= f) := by
  rcases regIdx_cases v with ⟨h, hr⟩ | ⟨h, hr⟩
  · have hskip : registerFault (v :: vs) = registerFault vs := by
      simp [registerFault, Nat.le_of_lt_succ h]
    rw [hr, hskip]
    exact hf ⟨v, h⟩ rfl
  · have hstop : registerFault (v :: vs) = some (.registerOutOfBounds v) := by
      simp [registerFault, h]
    rw [hr, hstop]
    exact ⟨rfl, nofun⟩

/-- The advance check (R116). -/
theorem faultOf_nextPc (s : State) (i : Instr) :
    faultOf (nextPc (instrLength i) s) = advanceFault s i := by
  rcases nextPc_cases (instrLength i) s with ⟨h, hr⟩ | ⟨h, hr⟩
  · rw [hr, advanceFault, if_pos h]; rfl
  · rw [hr, advanceFault, if_neg (Nat.not_lt.2 h)]; rfl

/-- The advance check is the last one: the writes follow it. -/
theorem checksTo_nextPc {len : Nat} {g : Nat → State} (hlen : instrLength i = len)
    (hg : ∀ n, (g n).status = s.status ∧ (g n).err = s.err) :
    ChecksTo s (advanceFault s i) (nextPc len s >>= fun n => .ok (g n)) := by
  rw [← Option.or_none (o := advanceFault s i), ← hlen]
  exact checksTo_bind (faultOf_nextPc s i) fun n => checksTo_ok (hg n).1 (hg n).2

/-- With no register operand left, an instruction's own check and then the advance follow. -/
theorem checksTo_own {α : Type} {x : Except Err α} {f : α → Except Err State}
    (hx : faultOf x = own) (hf : ∀ a, ChecksTo s (advanceFault s i) (f a)) :
    ChecksTo s ((registerFault []).or (own.or (advanceFault s i))) (x >>= f) :=
  checksTo_bind (c := own) hx hf

/-- The capacity check of LBL is its own condition (R203). -/
theorem faultOf_labelRoom (s : State) (name : List Nat) :
    faultOf (labelRoom s) = ownFault s (.lbl name) := by
  rcases labelRoom_cases s with ⟨h, hr⟩ | ⟨h, hr⟩
  · rw [hr, ownFault, if_pos h]; rfl
  · rw [hr, ownFault, if_neg (Nat.not_lt.2 h)]; rfl

/-- The address check of LD is its own condition (R131). -/
theorem faultOf_loadAddr (s : State) (rd off : Nat) :
    faultOf (loadAddr off s) = ownFault s (.ld rd off) := by
  by_cases h : 0 ≤ sext s.cfg.w off ∧ sext s.cfg.w off < s.cfg.dataEnd
  · have haddr : loadAddr off s = .ok (sext s.cfg.w off).toNat := by
      rw [loadAddr, Cfg.readBase, Cfg.dataStart, zero_add]
      exact if_neg (by omega)
    rw [haddr]
    exact (if_pos h).symm
  · rw [loadAddr_error (by omega)]
    exact (if_neg h).symm

/-- A taken jump fails exactly when no entry has its name (R202). -/
theorem faultOf_resolve (name : List Nat) (ls : List Label) :
    faultOf (resolve name ls) =
      if name ∈ ls.map Label.name then none else some (.undefinedLabel name) := by
  induction ls with
  | nil => rfl
  | cons l ls ih =>
    by_cases hl : l.name = name
    · simp [resolve, hl, faultOf]
    · simp [resolve, hl, Ne.symm hl, ih]

/-- The division is checked where its divisor is known (R149, R150). -/
theorem faultOf_divRes (a b : Nat) :
    faultOf (divRes a b) = if b = 0 then some .divisionByZero else none := by
  unfold divRes
  split <;> rfl

@[simp] theorem operandValue_val (s : State) (b : Fin 8) : operandValue s b.val = s.regs.get b := by
  simp [operandValue]

/-- The template of R142 with two source registers checks the three operands, its operation `f`, and
the advance. -/
theorem arithRR_checksTo {f : Nat → Nat → Except Err Int} {ra rb rd : Nat}
    (hlen : instrLength i = 4)
    (hf : ∀ a b : Fin 8, rb = b.val → faultOf (f (s.regs.get a) (s.regs.get b)) = own) :
    ChecksTo s ((registerFault [ra, rb, rd]).or (own.or (advanceFault s i)))
      (arithRR f ra rb rd s) :=
  checksTo_regIdx fun a _ => checksTo_regIdx fun b hb => checksTo_regIdx fun _ _ =>
    checksTo_own (hf a b hb) fun _ => checksTo_nextPc hlen fun _ => ⟨rfl, rfl⟩

/-- The template of R142 with an immediate checks the two registers, its operation `f`, and the
advance. -/
theorem arithRI_checksTo {f : Nat → Nat → Except Err Int} {ra imm rd : Nat}
    (hlen : instrLength i = 4)
    (hf : ∀ a, faultOf (f a imm) = own) :
    ChecksTo s ((registerFault [ra, rd]).or (own.or (advanceFault s i))) (arithRI f ra imm rd s) :=
  checksTo_regIdx fun _ _ => checksTo_regIdx fun _ _ =>
    checksTo_own (hf _) fun _ => checksTo_nextPc hlen fun _ => ⟨rfl, rfl⟩

/-- The template of R160 checks the two registers and the advance. -/
theorem compareRegs_checksTo {rel : Nat → Nat → Bool} {ra rb : Nat} (hlen : instrLength i = 3) :
    ChecksTo s ((registerFault [ra, rb]).or (advanceFault s i)) (compareRegs rel ra rb s) :=
  checksTo_regIdx fun _ _ => checksTo_regIdx fun _ _ => checksTo_nextPc hlen fun _ => ⟨rfl, rfl⟩

/-- A jump has no register operand, and its own condition is that an entry has its name (R202). -/
theorem regOperands_and_ownFault_of_jumpOf {name : List Nat} {taken : Bool}
    (hj : jumpOf s i = some (name, taken)) :
    i.regOperands = [] ∧ ownFault s i = faultOf (resolve name s.labels) := by
  rw [faultOf_resolve]
  cases i
  case jmp | jt | jf | jz | jnz | jn | jnn => cases hj; exact ⟨rfl, rfl⟩
  all_goals cases hj

/-- The template of R170: a taken jump checks its name alone, one not taken the advance alone. -/
theorem jump_checksTo {name : List Nat} {taken : Bool} (hlen : instrLength i = 2 + name.length) :
    ChecksTo s (if taken then faultOf (resolve name s.labels) else advanceFault s i)
      (jump taken name s) := by
  cases taken with
  | false => exact checksTo_nextPc hlen fun _ => ⟨rfl, rfl⟩
  | true =>
    rw [if_pos rfl, ← Option.or_none (o := faultOf _)]
    exact checksTo_bind rfl fun _ => checksTo_ok rfl rfl

/-- The fault of a jump: its name's when taken, else that of the advance (R170, R222). -/
theorem raisedFault_of_jumpOf {name : List Nat} {taken : Bool}
    (hj : jumpOf s i = some (name, taken)) :
    raisedFault s i = if taken then faultOf (resolve name s.labels) else advanceFault s i := by
  obtain ⟨hregs, hown⟩ := regOperands_and_ownFault_of_jumpOf hj
  rw [raisedFault, hregs, hj, ← hown]
  cases taken <;> rfl

/-- The fault of an instruction that is neither a jump nor HALT: that of a register operand, else
its own, else that of the advance (R222). -/
theorem raisedFault_of_no_jump (hj : jumpOf s i = none) (hhalt : i ≠ .halt) :
    raisedFault s i =
      (registerFault i.regOperands).or ((ownFault s i).or (advanceFault s i)) := by
  rw [raisedFault, registerFault, hj, if_neg hhalt]
  cases i.regOperands.find? fun v => decide (7 < v) <;> rfl

/-- The checks of an instruction that is neither a jump nor HALT: its register operands, its own
condition, the advance. -/
theorem exec_checksTo_of_no_jump (hj : jumpOf s i = none) (hhalt : i ≠ .halt) :
    ∃ r, exec i s = conclude s r ∧
      ChecksTo s ((registerFault i.regOperands).or ((ownFault s i).or (advanceFault s i))) r := by
  cases i
  case halt => exact absurd rfl hhalt
  case jmp | jt | jf | jz | jnz | jn | jnn => cases hj
  all_goals refine ⟨_, rfl, ?_⟩
  case ld rd off =>
    exact checksTo_regIdx fun _ _ => checksTo_own (faultOf_loadAddr s rd off) fun _ =>
      checksTo_nextPc rfl fun _ => ⟨rfl, rfl⟩
  case ldi => exact checksTo_regIdx fun _ _ => checksTo_nextPc rfl fun _ => ⟨rfl, rfl⟩
  case st =>
    exact checksTo_regIdx fun _ _ => checksTo_nextPc rfl fun _ =>
      ⟨writeAppend_status _ s, writeAppend_err _ s⟩
  case add | sub | mul => exact arithRR_checksTo rfl fun _ _ _ => rfl
  case addi | subi | muli => exact arithRI_checksTo rfl fun _ => rfl
  case div =>
    refine arithRR_checksTo rfl fun a b hb => ?_
    rw [faultOf_divRes, ownFault, hb, operandValue_val]
  case divi => exact arithRI_checksTo rfl fun a => faultOf_divRes a _
  case ceq | cgr | clo | cge | cle | cne => exact compareRegs_checksTo rfl
  case putn => exact checksTo_regIdx fun _ _ => checksTo_nextPc rfl fun _ => ⟨rfl, rfl⟩
  case puts | flush => exact checksTo_nextPc rfl fun _ => ⟨rfl, rfl⟩
  case lbl name =>
    exact checksTo_own (faultOf_labelRoom s name) fun _ =>
      checksTo_nextPc rfl fun _ => ⟨rfl, rfl⟩

/-- Every instruction but HALT makes the checks of R222 in their order. -/
theorem exec_checksTo_raisedFault (hhalt : i ≠ .halt) :
    ∃ r, exec i s = conclude s r ∧ ChecksTo s (raisedFault s i) r := by
  rcases hj : jumpOf s i with _ | ⟨name, taken⟩
  · rw [raisedFault_of_no_jump hj hhalt]
    exact exec_checksTo_of_no_jump hj hhalt
  · obtain ⟨hx, hlen⟩ := exec_of_jumpOf hj
    rw [raisedFault_of_jumpOf hj]
    exact ⟨_, hx, jump_checksTo hlen⟩

end Checks

/-- Settles O17: HALT makes no check, and the checks of every other instruction end in the fault of
R222 or in its writes. -/
theorem faultsFollowTheOrderOfChecks : Obligations.FaultsFollowTheOrderOfChecks := by
  intro s i
  by_cases hhalt : i = .halt
  · subst hhalt
    exact ⟨nofun, fun _ => ⟨_, rfl, rfl, rfl⟩⟩
  · obtain ⟨r, hx, hfault, hkeep⟩ := exec_checksTo_raisedFault (s := s) hhalt
    rw [hx, ← hfault, if_neg hhalt]
    cases r with
    | ok t =>
      obtain ⟨hst, herr⟩ := hkeep t rfl
      exact ⟨nofun, fun _ => ⟨t, rfl, herr, hst⟩⟩
    | error e => exact ⟨fun _ h => by cases h; rfl, nofun⟩

/-!
SUPPORT. The Execution Loop (spec/40_loop_and_halt.md rules R110 to R119): what the word at the pc
decides, how the reading of a name fails, and the states in which no step is defined.
-/

/-- The halt opcode at the pc is fetched as HALT, in any configuration (R110). -/
theorem fetchInstr_halt {s : State} (hpc : s.pc < s.cfg.memoryMax)
    (hword : memRead s s.pc = s.cfg.opc.halt) : fetchInstr s = .ok .halt := by
  rw [fetchInstr, decodeAt, fetch_ok hpc, bind_ok, hword, opOf_halt]
  rfl

/-- HALT is fetched from the halt opcode alone. -/
theorem memRead_pc_of_fetchInstr_halt {s : State} (h : fetchInstr s = .ok .halt) :
    memRead s s.pc = s.cfg.opc.halt := by
  have hread := decodedWordsAreTheEncoding _ _ _ _ h 0 Nat.one_pos
  exact (fetch_eq_ok.1 hread).2.symm

/-- A word at the pc that is no opcode is not decoded (R112). -/
theorem fetchInstr_illegal {s : State} (hpc : s.pc < s.cfg.memoryMax)
    (hword : ∀ o : Op, s.cfg.opc.code o ≠ memRead s s.pc) :
    fetchInstr s = .error (.unrecognizedOperation (memRead s s.pc)) := by
  rw [fetchInstr, decodeAt, fetch_ok hpc, bind_ok, opOf_none_iff.2 hword]

/-- An instruction other than HALT leaves the run status, or takes a fault. -/
theorem exec_runsOnOrFaults {i : Instr} {s : State} (hhalt : i ≠ .halt) :
    ∃ t, exec i s = .next t ∧ RunsOnOrFaults s t := by
  obtain ⟨hfault, hnone⟩ := faultsFollowTheOrderOfChecks s i
  cases hr : raisedFault s i with
  | some e => exact ⟨_, hfault e hr, .inr ⟨e, rfl⟩⟩
  | none =>
    obtain ⟨t, hx, herr, hst⟩ := hnone hr
    rw [if_neg hhalt] at hst
    exact ⟨t, hx, .inl ⟨hst, herr⟩⟩

/-- Settles O18: the meaning of HALT is this write and makes no check (R111). -/
theorem haltStopsTheCore : Obligations.HaltStopsTheCore := fun _ => rfl

/-- Settles O5: `fetchInstr` is the decoding at the pc. -/
theorem stepRunsTheDecodedInstruction : Obligations.StepRunsTheDecodedInstruction :=
  fun _ _ hs h => step_of_fetch_ok hs h

/-- Settles O7: the halt opcode is fetched as HALT, any other word as another instruction or as a
fault. -/
theorem stepOfARunningCore : Obligations.StepOfARunningCore := by
  intro s hs hpc
  refine ⟨fun hword => step_of_fetch_ok hs (fetchInstr_halt hpc hword), fun hword => ?_⟩
  cases hf : fetchInstr s with
  | error e => exact ⟨_, step_of_fetch_error hs hf, .inr ⟨e, rfl⟩⟩
  | ok i =>
    have hhalt : i ≠ .halt := fun hi => hword (memRead_pc_of_fetchInstr_halt (hi ▸ hf))
    obtain ⟨t, hx, ht⟩ := exec_runsOnOrFaults (s := s) hhalt
    rw [RunsOnOrFaults, hs] at ht
    exact ⟨t, (step_of_fetch_ok hs hf).trans hx, ht⟩

/-- Settles O10: the opcode word selects no mnemonic, and the fault of that is taken. -/
theorem illegalOpcodeFaults : Obligations.IllegalOpcodeFaults :=
  fun _ hs hpc hword => step_of_fetch_error hs (fetchInstr_illegal hpc hword)

/-- A name with no zero among the characters it is allowed and the word after them is too long
(R115). -/
theorem readName_tooLong {s : State} {start room a : Nat} (hin : a + room < s.cfg.memoryMax)
    (hne : ∀ b, a ≤ b → b ≤ a + room → memRead s b ≠ 0) :
    readName (fetch s) start room a = .error (.nameTooLong start) := by
  induction room generalizing a with
  | zero => rw [readName, fetch_ok (a := a) hin, bind_ok, if_neg (hne a le_rfl le_rfl)]
  | succ room ih =>
    have hrest : ∀ b, a + 1 ≤ b → b ≤ a + 1 + room → memRead s b ≠ 0 :=
      fun b hb hle => hne b (Nat.le_of_succ_le hb) (by omega)
    rw [readName, fetch_ok (by omega), bind_ok, if_neg (hne a le_rfl (Nat.le_add_right _ _)),
      ih (by omega) hrest, bind_error]

/-- A name with no zero up to the end of memory, which the characters it is allowed reach, is not
read: the fetch of the first address beyond memory fails (R53, R115). -/
theorem readName_fetch_error {s : State} {start room a : Nat} (ha : a ≤ s.cfg.memoryMax)
    (hout : s.cfg.memoryMax ≤ a + room)
    (hne : ∀ b, a ≤ b → b < s.cfg.memoryMax → memRead s b ≠ 0) :
    readName (fetch s) start room a = .error (.outOfBounds s.cfg.memoryMax) := by
  induction room generalizing a with
  | zero => exact fetch_bind_error_at_end ha fun hin => absurd hout (Nat.not_le.2 hin)
  | succ room ih =>
    refine fetch_bind_error_at_end ha fun hin => ?_
    rw [if_neg (hne a le_rfl hin), ih hin (by omega) fun b hb => hne b (Nat.le_of_succ_le hb),
      bind_error]

/-- The operand of a mnemonic with a name is that name, and its reading fails as the name's does
(R81, R86). -/
theorem decodeOperands_name_error {c : Cfg} {rd : Nat → Except Err Nat} {a : Nat} {o : Op}
    {e : Err} (ho : isNamed o = true) (h : readName rd (a + 1) c.nameMax (a + 1) = .error e) :
    decodeOperands c rd a o = .error e := by
  have hnamed (mk : List Nat → Instr) : readNamed c rd a mk = .error e := by
    rw [readNamed, h, bind_error]
  cases o
  case jmp | jt | jf | jz | jnz | jn | jnn | lbl => exact hnamed _
  all_goals cases ho

/-- Settles O14: the two ways in which the reading of a name fails, told apart by whether
NAME_MAX + 1 words of memory follow the opcode. -/
theorem nameReadingFaults : Obligations.NameReadingFaults := by
  intro s o hc hs hpc hop ho
  have hstep {e : Err}
      (h : readName (fetch s) (s.pc + 1) s.cfg.nameMax (s.pc + 1) = .error e) :
      step s = .next (takeFault e s) :=
    step_of_fetch_error hs <|
      (fetchInstr_of_opcode hc hpc hop).trans (decodeOperands_name_error ho h)
  refine ⟨fun hin hne => hstep (readName_tooLong hin fun b hb hle => ?_),
    fun hout hne => hstep (readName_fetch_error hpc hout hne)⟩
  obtain ⟨k, rfl⟩ := Nat.exists_eq_add_of_le hb
  exact hne k (by omega)

/-- LoadCode is the host's between Reset and Start alone (R252). -/
theorem hostLoadCode_of_not_idle {words : List Nat} {s : State} (h : s.status ≠ .idle) :
    hostLoadCode words s = .fault .hostProtocol :=
  if_neg fun hs => h hs.1

/-- Preset is the host's between LoadCode and Start alone (R252, R255). -/
theorem hostPreset_of_not_loaded {i v : Nat} {s : State} (h : s.status ≠ .loaded) :
    hostPreset i v s = .fault .hostProtocol := by
  unfold hostPreset
  split
  · exact if_neg fun hs => h hs.1
  · rfl

/-- Start is the host's after LoadCode alone (R252, R256). -/
theorem hostStart_of_not_loaded {s : State} (h : s.status ≠ .loaded) :
    hostStart s = .fault .hostProtocol :=
  if_neg h

theorem step_of_halted {s : State} (h : s.status = .halted) : step s = .fault .alreadyHalted := by
  rw [step, h]

theorem step_of_faulted {s : State} (h : s.status = .faulted) :
    step s = .fault .alreadyFaulted := by
  rw [step, h]

/-- In Halted and Faulted the host has no operation but reset (R119, R252). -/
theorem hostStep_of_ended {s : State} {op : HostOp} (h : s.status = .halted ∨ s.status = .faulted)
    (hop : op ≠ .reset) : ∃ f, hostStep op s = .fault f := by
  have hidle : s.status ≠ .idle := by rcases h with h | h <;> simp [h]
  have hloaded : s.status ≠ .loaded := by rcases h with h | h <;> simp [h]
  cases op with
  | reset => exact absurd rfl hop
  | loadCode words => exact ⟨_, hostLoadCode_of_not_idle hidle⟩
  | preset i v => exact ⟨_, hostPreset_of_not_loaded hloaded⟩
  | start => exact ⟨_, hostStart_of_not_loaded hloaded⟩
  | step => exact h.elim (fun h => ⟨_, step_of_halted h⟩) fun h => ⟨_, step_of_faulted h⟩

/-- Settles O8: the host's operations in Halted and Faulted, and reset, which leaves `idle`. -/
theorem noStepAfterTheEnd : Obligations.NoStepAfterTheEnd :=
  fun s => ⟨step_of_halted, step_of_faulted, fun h =>
    ⟨fun _ hop => hostStep_of_ended h hop, hostReset s, rfl, nofun, nofun⟩⟩

end Sys2Proof.Machine

/-!
SUPPORT. Loads and stores from the word at the pc on (spec/41_load_store.md rules R131 to R133): the
operand words fetched, and the register and advance checks in their order (R222).
-/

namespace Sys2Proof.Machine

section OperandsInMemory

variable {s : State} {a : Nat}

/-- One operand word that lies in memory is read from it (R53, R81). -/
theorem readOne_fetch_ok {mk : Nat → Instr} (h : a + 1 < s.cfg.memoryMax) :
    readOne (fetch s) a mk = .ok (mk (memRead s (a + 1))) := by
  rw [readOne, fetch_ok h, bind_ok]

/-- Two operand words that lie in memory are read from it (R53, R81). -/
theorem readTwo_fetch_ok {mk : Nat → Nat → Instr} (h : a + 2 < s.cfg.memoryMax) :
    readTwo (fetch s) a mk = .ok (mk (memRead s (a + 1)) (memRead s (a + 2))) := by
  rw [readTwo, fetch_ok (Nat.lt_of_succ_lt h), bind_ok, fetch_ok h, bind_ok]

end OperandsInMemory

section AtThePc

variable {s : State} (hc : s.cfg.Wf) (hs : s.status = .running)
include hc hs

/-- The fetch of a fixed-length instruction fails at the first of its operand words that lies beyond
memory (R53, R222). -/
theorem step_of_operand_beyond_memory {o : Op} {n k : Nat} (hpc : s.pc < s.cfg.memoryMax)
    (ho : memRead s s.pc = s.cfg.opc.code o) (hn : fixedOperands o = some n) (hk : k ≤ n)
    (hfirst : s.pc + k = s.cfg.memoryMax) :
    step s = .next (takeFault (.outOfBounds (s.pc + k)) s) := by
  rw [hfirst]
  exact missingOperandWordFaults s o n hc hs hpc ho hn (by omega)

/-- The opcode of LDI at the pc, its operand words in memory (R132). -/
theorem step_ldi (h : s.pc + 2 < s.cfg.memoryMax) (ho : memRead s s.pc = s.cfg.opc.ldi) :
    step s = exec (.ldi (memRead s (s.pc + 1)) (memRead s (s.pc + 2))) s :=
  step_of_fetch_ok hs <|
    (fetchInstr_of_opcode (o := .ldi) hc (by omega) ho).trans (readTwo_fetch_ok h)

/-- The opcode of ST at the pc, its operand word in memory (R133). -/
theorem step_st (h : s.pc + 1 < s.cfg.memoryMax) (ho : memRead s s.pc = s.cfg.opc.st) :
    step s = exec (.st (memRead s (s.pc + 1))) s :=
  step_of_fetch_ok hs <|
    (fetchInstr_of_opcode (o := .st) hc (by omega) ho).trans (readOne_fetch_ok h)

end AtThePc

section FaultsOfTheChecks

variable {s : State} {i : Instr} (hj : jumpOf s i = none) (hhalt : i ≠ .halt)
include hj hhalt

/-- The register check comes first: a first register operand above 7 is the fault (R114, R222). -/
theorem exec_of_first_register_error {v : Nat} {vs : List Nat} (hregs : i.regOperands = v :: vs)
    (hv : 7 < v) : exec i s = .next (takeFault (.registerOutOfBounds v) s) := by
  refine (faultsFollowTheOrderOfChecks s i).1 _ ?_
  rw [raisedFault_of_no_jump hj hhalt, hregs]
  simp [registerFault, hv]

/-- The advance check comes last: with registers in range and no fault of the instruction's own, a
next address beyond memory is the fault (R116, R222). -/
theorem exec_of_advance_error (hregs : ∀ v ∈ i.regOperands, v < 8) (hown : ownFault s i = none)
    (hn : s.cfg.memoryMax ≤ s.pc + instrLength i) :
    exec i s = .next (takeFault (.outOfBounds (s.pc + instrLength i)) s) := by
  have hreg : registerFault i.regOperands = none := by
    simpa [registerFault, Nat.lt_succ_iff] using hregs
  refine (faultsFollowTheOrderOfChecks s i).1 _ ?_
  rw [raisedFault_of_no_jump hj hhalt, hreg, hown, advanceFault, if_neg (Nat.not_lt.2 hn)]
  rfl

end FaultsOfTheChecks

/-- Settles O11: each branch is the fetch, a check of LDI, or its writes. -/
theorem ldiAtThePc : Obligations.LdiAtThePc := by
  intro s hc hs hpc ho
  have hbeyond {k : Nat} := step_of_operand_beyond_memory (o := .ldi) (k := k) hc hs hpc ho rfl
  split_ifs with h1 h2 hd hn
  · exact hbeyond (by omega) (by omega)
  · exact hbeyond (by omega) (by omega)
  all_goals rw [step_ldi hc hs (by omega) ho]
  · exact exec_of_advance_error rfl nofun (List.forall_mem_singleton.2 hd) rfl hn
  · exact ldiLoadsTheImmediate s ⟨_, hd⟩ _ (Nat.lt_of_not_le hn)
  · exact exec_of_first_register_error (i := .ldi _ _) rfl nofun rfl (Nat.le_of_not_lt hd)

/-- From a cursor in user data `WriteAppend` moves it on, unless it stands on the last cell (R57). -/
theorem writeAppend_eq_of_lt_dataEnd {s : State} (v : Nat) (hcur : s.wcur < s.cfg.dataEnd) :
    writeAppend v s = { s with
      mem := memInsert s.wcur v s.mem
      wcur := if s.wcur = s.cfg.dataEnd - 1 then s.wcur else s.wcur + 1 } := by
  have hlast : s.wcur < s.cfg.dataEnd - 1 ↔ ¬ s.wcur = s.cfg.dataEnd - 1 := by omega
  rw [writeAppend_eq]
  simp only [hlast, ite_not]

/-- Settles O12: ST at the pc meets the end of memory in its fetch, a register above 7, the end of
memory in its advance, or makes its store. -/
theorem stAtThePc : Obligations.StAtThePc := by
  intro s hc hs hpc hcur ho
  refine ⟨fun h1 => ?_, fun h1 hreg => ?_, fun h1 hr => ⟨fun hn => ?_, fun hn => ?_⟩⟩
  · exact step_of_operand_beyond_memory (o := .st) hc hs hpc ho rfl le_rfl (by omega)
  all_goals rw [step_st hc hs h1 ho]
  · exact exec_of_first_register_error (i := .st _) rfl nofun rfl hreg
  · exact exec_of_advance_error rfl nofun (List.forall_mem_singleton.2 hr) rfl hn
  · refine ⟨_, exec_st_of_room ⟨_, hr⟩ hn, memRead_writeAppend _ s, ?_⟩
    rw [writeAppend_eq_of_lt_dataEnd _ hcur]
    rfl

/-- Settles O19: the address of a user-data cell is its own offset, and no check of LD fails. -/
theorem ldLoadsTheUserDataCell : Obligations.LdLoadsTheUserDataCell :=
  fun _ d _ hc hoff hn => exec_ld_of_room d hc hoff hn

end Sys2Proof.Machine

/-!
SUPPORT. The arithmetic instructions with every check passed (spec/42_arithmetic.md rules R140 to
R151): the value and the flag of each operation, said once for both of its forms.
-/

namespace Sys2Proof.Machine

/-- In words of `w` bits the operation `f` answers an exact result of `x` and `y`, which is stored
as `v` and classified as `fl` (R140, R141). -/
abbrev ArithResult (f : Nat → Nat → Except Err Int) (w x y v : Nat) (fl : Flag) : Prop :=
  ∃ res, f x y = .ok res ∧ narrow w res = v ∧ classify res = fl

section Results

variable {w x y : Nat}

/-- What is stored does not see a multiple of the modulus (R140). -/
theorem narrow_add_two_pow (w : Nat) (res : Int) : narrow w (res + 2 ^ w) = narrow w res := by
  rw [narrow, Int.add_emod_right, narrow]

theorem narrow_natCast_of_isWord {n : Nat} (hn : IsWord w n) : narrow w (n : Int) = n := by
  rw [narrow_natCast, Nat.mod_eq_of_lt hn]

/-- A negative difference of words is stored as 2^W plus it (R140, R145). -/
theorem narrow_sub (hx : IsWord w x) (hy : IsWord w y) :
    narrow w ((x : Int) - y) = if y ≤ x then x - y else 2 ^ w + x - y := by
  split_ifs with hle
  · rw [← Nat.cast_sub hle]
    exact narrow_natCast_of_isWord (Nat.lt_of_le_of_lt (Nat.sub_le x y) hx)
  · have hcast : ((x : Int) - y) + 2 ^ w = ((2 ^ w + x - y : Nat) : Int) := by
      rw [Nat.cast_sub (Nat.le_add_right_of_le hy.le)]
      push_cast
      ring
    rw [← narrow_add_two_pow, hcast]
    exact narrow_natCast_of_isWord (show 2 ^ w + x - y < 2 ^ w by omega)

/-- The sign of a difference is the order of its operands (R141). -/
theorem classify_sub (x y : Nat) :
    classify ((x : Int) - y) = if x = y then .zero else if x < y then .neg else .none := by
  have hzero : (x : Int) - y = 0 ↔ x = y := by omega
  have hneg : (x : Int) - y < 0 ↔ x < y := by omega
  simp only [classify, hzero, hneg]

theorem addRes_result (w x y : Nat) :
    ArithResult addRes w x y ((x + y) % 2 ^ w) (if x = 0 ∧ y = 0 then .zero else .none) :=
  ⟨_, addRes_eq x y, narrow_natCast w _, by simp only [classify_natCast, Nat.add_eq_zero_iff]⟩

theorem subRes_result (hx : IsWord w x) (hy : IsWord w y) :
    ArithResult subRes w x y (if y ≤ x then x - y else 2 ^ w + x - y)
      (if x = y then .zero else if x < y then .neg else .none) :=
  ⟨_, rfl, narrow_sub hx hy, classify_sub x y⟩

theorem mulRes_result (w x y : Nat) :
    ArithResult mulRes w x y (x * y % 2 ^ w) (if x = 0 ∨ y = 0 then .zero else .none) :=
  ⟨_, mulRes_eq x y, narrow_natCast w _, by simp only [classify_natCast, Nat.mul_eq_zero]⟩

theorem divRes_result (hx : IsWord w x) (hy : y ≠ 0) :
    ArithResult divRes w x y (x / y) (if x < y then .zero else .none) :=
  ⟨_, divRes_eq hy, narrow_natCast_of_isWord (Nat.lt_of_le_of_lt (Nat.div_le_self x y) hx),
    by simp only [classify_natCast, Nat.div_eq_zero_iff, hy, false_or]⟩

end Results

section Templates

variable {s t : State} {f : Nat → Nat → Except Err Int} {v : Nat} {fl : Flag}

/-- `ArithRR` with room to advance (R142). -/
theorem arithRR_of_result {a b : Fin 8} (d : Fin 8) (hn : s.pc + 4 < s.cfg.memoryMax)
    (hf : ArithResult f s.cfg.w (s.regs.get a) (s.regs.get b) v fl) :
    conclude s (arithRR f a b d s) =
      .next { s with regs := s.regs.set v d, flag := fl, pc := s.pc + 4 } := by
  obtain ⟨res, hres, rfl, rfl⟩ := hf
  rw [arithRR_eq_ok.2 ⟨a, b, d, res, rfl, rfl, rfl, hres, hn, rfl⟩]
  rfl

/-- `ArithRI` with room to advance (R142). -/
theorem arithRI_of_result {a : Fin 8} {imm : Nat} (d : Fin 8) (hn : s.pc + 4 < s.cfg.memoryMax)
    (hf : ArithResult f s.cfg.w (s.regs.get a) imm v fl) :
    conclude s (arithRI f a imm d s) =
      .next { s with regs := s.regs.set v d, flag := fl, pc := s.pc + 4 } := by
  obtain ⟨res, hres, rfl, rfl⟩ := hf
  rw [arithRI_eq_ok.2 ⟨a, d, res, rfl, rfl, hres, hn, rfl⟩]
  rfl

/-- `ArithRR` writes as R142 says to the register its last operand names, or takes a fault. -/
theorem arithRR_cases {ra rb rd : Nat} (h : conclude s (arithRR f ra rb rd s) = .next t) :
    (∃ e, t = takeFault e s) ∨
    ∃ (d : Fin 8) (res : Int), rd = d.val ∧ t = arithWrite d res (s.pc + 4) s := by
  refine (conclude_fault_or_ok h).imp_right fun h => ?_
  obtain ⟨-, -, d, res, -, -, hd, -, -, ht⟩ := arithRR_eq_ok.1 h
  exact ⟨d, res, hd, ht⟩

/-- `ArithRI` writes as R142 says to the register its last operand names, or takes a fault. -/
theorem arithRI_cases {ra imm rd : Nat} (h : conclude s (arithRI f ra imm rd s) = .next t) :
    (∃ e, t = takeFault e s) ∨
    ∃ (d : Fin 8) (res : Int), rd = d.val ∧ t = arithWrite d res (s.pc + 4) s := by
  refine (conclude_fault_or_ok h).imp_right fun h => ?_
  obtain ⟨-, d, res, -, hd, -, -, ht⟩ := arithRI_eq_ok.1 h
  exact ⟨d, res, hd, ht⟩

/-- Each of the eight arithmetic instructions is one of the two templates (R142). -/
theorem exec_arith_cases {ra x rd : Nat}
    (h : exec (.add ra x rd) s = .next t ∨ exec (.addi ra x rd) s = .next t ∨
      exec (.sub ra x rd) s = .next t ∨ exec (.subi ra x rd) s = .next t ∨
      exec (.mul ra x rd) s = .next t ∨ exec (.muli ra x rd) s = .next t ∨
      exec (.div ra x rd) s = .next t ∨ exec (.divi ra x rd) s = .next t) :
    (∃ e, t = takeFault e s) ∨
    ∃ (d : Fin 8) (res : Int), rd = d.val ∧ t = arithWrite d res (s.pc + 4) s := by
  rcases h with hadd | haddi | hsub | hsubi | hmul | hmuli | hdiv | hdivi
  · exact arithRR_cases hadd
  · exact arithRI_cases haddi
  · exact arithRR_cases hsub
  · exact arithRI_cases hsubi
  · exact arithRR_cases hmul
  · exact arithRI_cases hmuli
  · exact arithRR_cases hdiv
  · exact arithRI_cases hdivi

end Templates

/-- Settles O24: the two forms have one operation, whose operands are words. -/
theorem subStoresTheDifference : Obligations.SubStoresTheDifference := by
  intro s a b d imm hregs himm hn
  exact ⟨arithRR_of_result d hn (subRes_result (hregs a) (hregs b)),
    arithRI_of_result d hn (subRes_result (hregs a) himm)⟩

/-- Settles O26: a quotient is at most its dividend, so it is a word. -/
theorem divStoresTheQuotient : Obligations.DivStoresTheQuotient := by
  intro s a b d imm hregs hn
  exact ⟨fun hb => arithRR_of_result d hn (divRes_result (hregs a) hb),
    fun himm => arithRI_of_result d hn (divRes_result (hregs a) himm)⟩

/-- Settles O41: an arithmetic instruction that completes makes the three writes of R142, one that
does not takes a fault. -/
theorem arithmeticFrame : Obligations.ArithmeticFrame := by
  intro ra x rd s t h
  rcases exec_arith_cases h with ⟨e, rfl⟩ | ⟨d, res, rfl, rfl⟩
  · exact ⟨fun _ _ => rfl, rfl, memRead_takeFault e s, rfl, rfl, rfl, .inr ⟨e, rfl⟩, rfl, rfl⟩
  · exact ⟨sameRegsBut_setReg d (narrow s.cfg.w res) (s.pc + 4) s, rfl,
      memRead_arithWrite d res _ s, rfl, rfl, rfl, .inl ⟨rfl, rfl⟩, rfl, rfl⟩

/-- Settles O23: the exact sum is a natural number, 0 only where both operands are. -/
theorem addStoresTheSum : Obligations.AddStoresTheSum := by
  intro s a b d imm hn
  exact ⟨arithRR_of_result d hn (addRes_result _ _ _), arithRI_of_result d hn (addRes_result _ _ _)⟩

/-- Settles O25: the exact product is a natural number, 0 only where an operand is. -/
theorem mulStoresTheProduct : Obligations.MulStoresTheProduct := by
  intro s a b d imm hn
  exact ⟨arithRR_of_result d hn (mulRes_result _ _ _), arithRI_of_result d hn (mulRes_result _ _ _)⟩

/-- With its registers in range, the fault of an instruction's own condition is the fault it raises,
wherever it stands (R222). -/
theorem exec_of_own_fault {s : State} {i : Instr} {e : Err} (hj : jumpOf s i = none)
    (hhalt : i ≠ .halt) (hregs : ∀ v ∈ i.regOperands, v < 8) (hown : ownFault s i = some e) :
    exec i s = .next (takeFault e s) := by
  have hreg : registerFault i.regOperands = none := by
    simpa [registerFault, Nat.lt_succ_iff] using hregs
  refine (faultsFollowTheOrderOfChecks s i).1 _ ?_
  rw [raisedFault_of_no_jump hj hhalt, hreg, hown]
  rfl

/-- Settles O27: the registers are in range, so the zero divisor is the first check that fails. -/
theorem divisionByZeroFaults : Obligations.DivisionByZeroFaults := by
  intro s a b d
  refine ⟨fun hb => ?_, ?_⟩
  · exact exec_of_own_fault (i := .div a b d) rfl nofun (by simp [Instr.regOperands])
      (by simp [ownFault, hb])
  · exact exec_of_own_fault (i := .divi a 0 d) rfl nofun (by simp [Instr.regOperands])
      (by simp [ownFault])

end Sys2Proof.Machine

/-!
SUPPORT. The comparisons with every check passed, and all they can do (spec/43_compare.md rules R160
to R167).
-/

namespace Sys2Proof.Machine

/-- `Compare(rel)` with room to advance (R160). -/
theorem compareRegs_of_room (rel : Nat → Nat → Bool) {s : State} (a b : Fin 8)
    (hn : s.pc + 3 < s.cfg.memoryMax) :
    conclude s (compareRegs rel a b s) =
      .next { s with cond := rel (s.regs.get a) (s.regs.get b), pc := s.pc + 3 } := by
  rw [compareRegs_eq_ok.2 ⟨a, b, rfl, rfl, hn, rfl⟩]
  rfl

/-- Settles O28: each of the six is the template of R160 with its own relation. -/
theorem comparisonsSetTheCondition : Obligations.ComparisonsSetTheCondition := by
  intro s a b hn
  exact ⟨compareRegs_of_room relEq a b hn, compareRegs_of_room relGr a b hn,
    compareRegs_of_room relLo a b hn, compareRegs_of_room relGe a b hn,
    compareRegs_of_room relLe a b hn, compareRegs_of_room relNe a b hn⟩

/-- The order of two words is total: exactly one of lower, equal and greater holds (R167). -/
theorem count_lo_eq_gr (x y : Nat) :
    [decide (x < y), decide (x = y), decide (x > y)].count true = 1 := by
  rcases lt_trichotomy x y with hlt | rfl | hgt
  · simp [hlt, hlt.ne, hlt.le]
  · simp
  · simp [hgt, hgt.ne', hgt.le]

/-- Settles O29: the conditions of the six completed comparisons are relations of the same two
words, which are totally ordered. -/
theorem comparisonsAreRelated : Obligations.ComparisonsAreRelated := by
  intro s a b hn
  obtain ⟨heq, hgr, hlo, hge, hle, hne⟩ := comparisonsSetTheCondition s a b hn
  refine ⟨_, _, _, _, _, _, heq, hgr, hlo, hge, hle, hne, ?_, ?_, ?_, ?_, ?_, count_lo_eq_gr _ _⟩
  · exact decide_not
  · rw [← decide_not, decide_eq_decide, ge_iff_le, not_lt]
  · rw [← decide_not, decide_eq_decide, gt_iff_lt, not_lt]
  · rw [← Bool.decide_or, decide_eq_decide, ge_iff_le, le_iff_lt_or_eq, eq_comm]
  · rw [← Bool.decide_or, decide_eq_decide, le_iff_lt_or_eq]

/-- A comparison writes the condition and the pc, or takes a fault (R160). -/
theorem exec_compare_cases {i : Instr} {s t : State} (hi : familyOf i = .compare)
    (h : exec i s = .next t) :
    (∃ e, t = takeFault e s) ∨ ∃ b p, t = setPc p (setCond b s) := by
  have hcases := exec_cases h
  simp only [hi, reduceCtorEq, false_and, true_and, exists_false, false_or, or_false] at hcases
  exact hcases

/-- The six comparisons have one frame: the condition and the pc may change, or a fault is taken. -/
theorem exec_compare_frame {i : Instr} {s t : State} (hi : familyOf i = .compare)
    (h : exec i s = .next t) :
    t.regs = s.regs ∧ t.flag = s.flag ∧ SameMemory s t ∧
    t.wcur = s.wcur ∧ t.labels = s.labels ∧ t.out = s.out ∧
    RunsOnOrFaults s t ∧ SameMachine s t := by
  rcases exec_compare_cases hi h with ⟨e, rfl⟩ | ⟨b, p, rfl⟩
  · exact ⟨rfl, rfl, memRead_takeFault e s, rfl, rfl, rfl, .inr ⟨e, rfl⟩, rfl, rfl⟩
  · exact ⟨rfl, rfl, memRead_setCond b s, rfl, rfl, rfl, .inl ⟨rfl, rfl⟩, rfl, rfl⟩

/-- Settles O42: each of the six instructions is of the family of comparisons. -/
theorem compareFrame : Obligations.CompareFrame := by
  intro ra rb s t h
  rcases h with h | h | h | h | h | h
  all_goals exact exec_compare_frame rfl h

end Sys2Proof.Machine

/-!
SUPPORT. A taken jump is decided by the lookup of its name, and all a jump can do
(spec/44_jumps.md rules R170 to R180; spec/46_label.md rule R202).
-/

namespace Sys2Proof.Machine

/-- A taken jump writes the pc alone, with the address of the first entry with its name (R170,
R202). -/
theorem exec_of_jump_taken {s : State} {i : Instr} {pre post : List Label} {l : Label}
    (hj : jumpOf s i = some (l.name, true)) (hs : s.labels = pre ++ l :: post)
    (hpre : ∀ m ∈ pre, m.name ≠ l.name) : exec i s = .next { s with pc := l.address } := by
  have hres : resolve l.name s.labels = .ok l.address := hs ▸ resolve_append hpre rfl
  obtain ⟨hx, -⟩ := exec_of_jumpOf hj
  rw [hx, jump_eq_ok.2 (.inl ⟨rfl, _, hres, rfl⟩), conclude_ok]
  rfl

/-- Settles O30: under its condition each of the seven jumps is taken. -/
theorem takenJumpGoesToTheLabel : Obligations.TakenJumpGoesToTheLabel := by
  intro s pre post l hs hpre
  refine ⟨?_, fun h => ?_, fun h => ?_, fun h => ?_, fun h => ?_, fun h => ?_, fun h => ?_⟩
  · exact exec_of_jump_taken rfl hs hpre
  all_goals exact exec_of_jump_taken (by simp [jumpOf, h]) hs hpre

/-- Settles O32: the fault of a taken jump is that of the lookup, which finds no entry. -/
theorem undefinedLabelFaults : Obligations.UndefinedLabelFaults := by
  intro s i name hj hnone
  obtain ⟨hx, -⟩ := exec_of_jumpOf hj
  rw [hx, jump, if_pos rfl, resolve_error hnone]
  rfl

/-- Settles O33: the LBL that completed put its entry behind entries with other names, and a table
that extends this one still has it as the first with its name. -/
theorem backwardJumpResumesAfterTheLabel : Obligations.BackwardJumpResumesAfterTheLabel := by
  intro s t u name hlbl hrun hnew hext
  rcases execLbl_cases hlbl with ⟨e, rfl⟩ | ⟨-, -, rfl⟩
  · exact absurd (takeFault_status e s) hrun
  · obtain ⟨post, hpost⟩ := hext
    have hu : u.labels = s.labels ++ ⟨s.pc + (2 + name.length), name⟩ :: post := by
      simpa using hpost.symm
    exact exec_of_jump_taken (l := ⟨s.pc + (2 + name.length), name⟩) rfl hu hnew

/-- A jump writes the pc, or takes a fault (R170). -/
theorem exec_jump_cases {i : Instr} {s t : State} (hi : familyOf i = .jump)
    (h : exec i s = .next t) : (∃ e, t = takeFault e s) ∨ ∃ p, t = setPc p s := by
  have hcases := exec_cases h
  simp only [hi, reduceCtorEq, false_and, true_and, exists_false, false_or, or_false] at hcases
  exact hcases

/-- The seven jumps have one frame: the pc may change, or a fault is taken. -/
theorem exec_jump_frame {i : Instr} {s t : State} (hi : familyOf i = .jump)
    (h : exec i s = .next t) :
    t.regs = s.regs ∧ t.cond = s.cond ∧ t.flag = s.flag ∧ SameMemory s t ∧
    t.wcur = s.wcur ∧ t.labels = s.labels ∧ t.out = s.out ∧
    RunsOnOrFaults s t ∧ SameMachine s t := by
  rcases exec_jump_cases hi h with ⟨e, rfl⟩ | ⟨p, rfl⟩
  · exact ⟨rfl, rfl, rfl, memRead_takeFault e s, rfl, rfl, rfl, .inr ⟨e, rfl⟩, rfl, rfl⟩
  · exact ⟨rfl, rfl, rfl, memRead_setPc p s, rfl, rfl, rfl, .inl ⟨rfl, rfl⟩, rfl, rfl⟩

/-- Settles O43: each of the seven instructions is of the family of jumps. -/
theorem jumpFrame : Obligations.JumpFrame := by
  intro name s t h
  rcases h with h | h | h | h | h | h | h
  all_goals exact exec_jump_frame rfl h

end Sys2Proof.Machine

/-!
SUPPORT. The digits PUTN prints are the library's base-ten digits, and the output instructions with
every check passed (spec/45_output.md rules R190 and R192).
-/

namespace Sys2Proof.Machine

/-- The digits `ds`, most significant first, are the shortest base-ten numeral of `v` (R190). -/
abbrev ShortestNumeral (ds : List Nat) (v : Nat) : Prop :=
  (∀ d ∈ ds, d < 10) ∧ Nat.ofDigits 10 ds.reverse = v ∧ ds ≠ [] ∧ (ds.head? = some 0 → ds = [0])

theorem digits_of_lt_ten (fuel : Nat) {v : Nat} (hv : v < 10) : digits (fuel + 1) v = [v] :=
  if_pos hv

theorem digits_of_ten_le (fuel : Nat) {v : Nat} (hv : 10 ≤ v) :
    digits (fuel + 1) v = digits fuel (v / 10) ++ [v % 10] :=
  if_neg (Nat.not_lt.2 hv)

/-- With fuel above a positive number its digits are the library's, which stand least significant
first. -/
theorem digits_eq_reverse_nat_digits {fuel v : Nat} (hfuel : v < fuel) (hv : v ≠ 0) :
    digits fuel v = (Nat.digits 10 v).reverse := by
  induction fuel generalizing v with
  | zero => exact absurd hfuel (Nat.not_lt_zero v)
  | succ fuel ih =>
    rcases Nat.lt_or_ge v 10 with hlt | hge
    · rw [digits_of_lt_ten fuel hlt, Nat.digits_of_lt 10 v hv hlt, List.reverse_singleton]
    · rw [digits_of_ten_le fuel hge, ih (by omega) (by omega),
        Nat.digits_eq_cons_digits_div (by decide) hv, List.reverse_cons]

theorem shortestNumeral_zero : ShortestNumeral [0] 0 := by simp [ShortestNumeral]

/-- The last of the library's digits of a positive number, the most significant one, is not 0. -/
theorem shortestNumeral_reverse_nat_digits {v : Nat} (hv : v ≠ 0) :
    ShortestNumeral (Nat.digits 10 v).reverse v := by
  refine ⟨fun d hd => ?_, ?_, ?_, fun hzero => ?_⟩
  · exact Nat.digits_lt_base (by decide) (List.mem_reverse.1 hd)
  · rw [List.reverse_reverse, Nat.ofDigits_digits]
  · exact List.reverse_ne_nil_iff.2 (Nat.digits_ne_nil_iff_ne_zero.2 hv)
  · rw [List.head?_reverse, List.getLast?_eq_some_getLast (Nat.digits_ne_nil_iff_ne_zero.2 hv),
      Option.some.injEq] at hzero
    exact absurd hzero (Nat.getLast_digit_ne_zero 10 hv)

/-- The digits of `Decimal(v)` are the shortest numeral of `v` (R190; decision D18). -/
theorem digits_shortestNumeral (v : Nat) : ShortestNumeral (digits (v + 1) v) v := by
  rcases eq_or_ne v 0 with rfl | hv
  · exact shortestNumeral_zero
  · rw [digits_eq_reverse_nat_digits (Nat.lt_succ_self v) hv]
    exact shortestNumeral_reverse_nat_digits hv

/-- PUTN with room to advance (R190). -/
theorem exec_putn_of_room {s : State} (r : Fin 8) (hn : s.pc + 2 < s.cfg.memoryMax) :
    exec (.putn r) s =
      .next { s with out := s.out ++ decimal (s.regs.get r), pc := s.pc + 2 } := by
  rw [exec, execPutn, regIdx_val, bind_ok, nextPc_ok hn, bind_ok, conclude_ok, getReg]
  rfl

/-- Settles O34: the bytes PUTN emits are those of the digits of the register's word. -/
theorem putnEmitsTheDecimalNumeral : Obligations.PutnEmitsTheDecimalNumeral := by
  intro s r hn
  obtain ⟨hlt, hval, hne, hlead⟩ := digits_shortestNumeral (s.regs.get r)
  exact ⟨_, hlt, hval, hne, hlead, exec_putn_of_room r hn⟩

/-- Settles O36: room to advance is the one check of FLUSH. -/
theorem flushEmitsANewline : Obligations.FlushEmitsANewline := by
  intro s hn
  rw [exec, execFlush, nextPc_ok hn, bind_ok, conclude_ok]
  rfl

end Sys2Proof.Machine

/-!
SUPPORT. LBL: its entry and the pc, the fault of a full table, and its frame (spec/46_label.md rules
R201 to R204).
-/

namespace Sys2Proof.Machine

/-- Settles O45: LBL is one `define` and the advance, or takes a fault. -/
theorem labelFrame : Obligations.LabelFrame := by
  intro name s t h
  rcases execLbl_cases h with ⟨e, rfl⟩ | ⟨-, -, rfl⟩
  · exact ⟨rfl, rfl, rfl, memRead_takeFault e s, rfl, rfl, List.prefix_rfl, Nat.le_succ _,
      .inr ⟨e, rfl⟩, rfl, rfl⟩
  · refine ⟨rfl, rfl, rfl, fun a => ?_, rfl, rfl, ?_, ?_, .inl ⟨rfl, rfl⟩, rfl, rfl⟩
    · rw [memRead_setPc, memRead_define]
    · rw [setPc_labels, define_labels]
      exact List.prefix_append _ _
    · rw [setPc_labels, define_labels, List.length_append, List.length_singleton]

/-- Settles O37: with room in the table and room to advance no check of LBL fails, whatever names
the table holds. -/
theorem lblAppendsAnEntry : Obligations.LblAppendsAnEntry := by
  intro s name hroom hn
  rw [exec, execLbl, labelRoom_eq_ok (u := ()).2 hroom, bind_ok, nextPc_ok hn, bind_ok, conclude_ok]
  rfl

/-- Settles O38: LBL has no register operand, so the capacity check is its first, and the advance is
not reached. -/
theorem fullLabelTableFaults : Obligations.FullLabelTableFaults := by
  intro s name hfull
  exact exec_of_own_fault (i := .lbl name) rfl nofun nofun (if_neg (Nat.not_lt.2 hfull))

end Sys2Proof.Machine

/-!
SUPPORT. Every word of the encoding of a well-formed instruction is a word of the machine
(spec/30_encoding.md rules R80 to R87).
-/

namespace Sys2Proof

/-- The opcodes of a legal configuration are words (R5). -/
theorem opcode_isWord {c : Cfg} (hc : c.Wf) (o : Op) : IsWord c.w (c.opc.code o) := by
  obtain ⟨-, -, -, -, -, -, hopc, -⟩ := hc
  exact hopc o (op_mem_all o)

/-- A name with its terminating zero is made of words (R86). -/
theorem terminated_name_isWord {c : Cfg} {name : List Nat} (hname : NameOk c name) :
    ∀ v ∈ name ++ [0], IsWord c.w v := by
  obtain ⟨-, hchars⟩ := hname
  rw [List.forall_mem_append, List.forall_mem_singleton]
  exact ⟨fun v hv => (hchars v hv).2, Nat.two_pow_pos _⟩

/-- The operand words of each format of R81. -/
theorem encode_tail_isWord {c : Cfg} {i : Instr} (hw : i.wellFormed c = true) :
    ∀ v ∈ (encode c i).tail, IsWord c.w v := by
  cases i
  case halt | flush => exact nofun
  case jmp | jt | jf | jz | jnz | jn | jnn | lbl =>
    exact terminated_name_isWord (of_decide_eq_true hw)
  case puts => exact List.forall_mem_cons.2 (of_decide_eq_true hw)
  all_goals simpa [encode, Instr.wellFormed] using hw

theorem encode_isWord {c : Cfg} {i : Instr} (hc : c.Wf) (hw : i.wellFormed c = true) :
    ∀ v ∈ encode c i, IsWord c.w v := by
  obtain ⟨operands, henc⟩ := encode_eq_opcode_cons c i
  have hops := encode_tail_isWord hw
  rw [henc] at hops ⊢
  exact List.forall_mem_cons.2 ⟨opcode_isWord hc _, hops⟩

end Sys2Proof

/-!
SUPPORT. The operations of the host: exactly when each has a transition and where it leads
(spec/70_reset_and_hazards.md rules R250 to R256), the image LoadCode writes, and the invariant.
-/

namespace Sys2Proof.Machine

section HostOps

variable {s t : State} {words : List Nat}

/-- LoadCode has a transition on words in `idle` alone: to `loaded` with the image written, or, for
want of room for the halt word, to a fault (R253, R254). -/
theorem hostLoadCode_eq_next :
    hostLoadCode words s = .next t ↔
      (s.status = .idle ∧ ∀ v ∈ words, IsWord s.cfg.w v) ∧
      ((words.length + 1 ≤ s.cfg.codeCap ∧ t = setStatus .loaded (loadImage words s)) ∨
       (s.cfg.codeCap < words.length + 1 ∧ t = takeFault (.codeTooLarge words.length) s)) := by
  unfold hostLoadCode
  split
  · next hpre =>
    split
    · next hlarge =>
      refine ⟨fun h => ⟨hpre, .inr ⟨hlarge, by cases h; rfl⟩⟩, ?_⟩
      rintro ⟨-, ⟨hfit, -⟩ | ⟨-, rfl⟩⟩
      · exact absurd hlarge (Nat.not_lt.2 hfit)
      · rfl
    · next hfit =>
      refine ⟨fun h => ⟨hpre, .inl ⟨Nat.not_lt.1 hfit, by cases h; rfl⟩⟩, ?_⟩
      rintro ⟨-, ⟨-, rfl⟩ | ⟨hlarge, -⟩⟩
      · rfl
      · exact absurd hlarge hfit
  · next hpre => simp [hpre]

/-- Preset has a transition in `loaded` alone, on a general register and a word (R255). -/
theorem hostPreset_eq_next {i v : Nat} :
    hostPreset i v s = .next t ↔
      (s.status = .loaded ∧ IsWord s.cfg.w v) ∧ ∃ d : Fin 8, i = d.val ∧ t = setReg d v s := by
  unfold hostPreset
  split
  · next hi =>
    split
    · next hpre =>
      refine ⟨fun h => ⟨hpre, ⟨i, hi⟩, rfl, by cases h; rfl⟩, ?_⟩
      rintro ⟨-, d, rfl, rfl⟩
      rfl
    · next hpre => simp [hpre]
  · next hi =>
    refine ⟨nofun, ?_⟩
    rintro ⟨-, d, rfl, -⟩
    exact absurd d.isLt hi

/-- Start has a transition in `loaded` alone (R256). -/
theorem hostStart_eq_next :
    hostStart s = .next t ↔ s.status = .loaded ∧ t = setStatus .running s := by
  unfold hostStart
  split
  · next hs => simp [hs, eq_comm]
  · next hs => simp [hs]

/-- An index above 7 names no general register (R255). -/
theorem hostPreset_of_index_above {i v : Nat} (hi : 7 < i) :
    hostPreset i v s = .fault .hostProtocol :=
  dif_neg (Nat.not_lt.2 hi)

/-- The image is written to memory and touches nothing else (R253). -/
theorem loadImage_eq (words : List Nat) (s : State) :
    loadImage words s = { s with mem := (loadImage words s).mem } := by
  obtain ⟨m, hm⟩ := memWriteList_eq (words ++ [s.cfg.opc.halt]) s.cfg.codeStart s
  rw [loadImage, hm]

@[simp] theorem loadImage_cfg (words : List Nat) (s : State) : (loadImage words s).cfg = s.cfg := by
  rw [loadImage_eq]

@[simp] theorem loadImage_pc (words : List Nat) (s : State) : (loadImage words s).pc = s.pc := by
  rw [loadImage_eq]

/-- The words, then the halt opcode, from CODE_START on (R253). -/
theorem memRead_loadImage {k : Nat} (hk : k < (words ++ [s.cfg.opc.halt]).length) :
    memRead (loadImage words s) (s.cfg.codeStart + k) = (words ++ [s.cfg.opc.halt])[k] := by
  rw [loadImage, memRead_memWriteList, dif_pos (by omega)]
  simp only [Nat.add_sub_cancel_left]

theorem memRead_loadImage_outside {a : Nat}
    (ha : a < s.cfg.codeStart ∨ s.cfg.codeStart + words.length < a) :
    memRead (loadImage words s) a = memRead s a := by
  rw [loadImage, memRead_memWriteList, dif_neg]
  rw [List.length_append, List.length_singleton]
  omega

/-- A state that has taken no fault and takes none keeps the invariant (R30). -/
theorem setStatus_keeps_inv {st : Status} (hi : s.Inv) (hs : s.status ≠ .faulted)
    (hst : st ≠ .faulted) : (setStatus st s).Inv := by
  obtain ⟨hcfg, hregs, hpc, hmem, hcur, hlabels, herr⟩ := hi
  have hnone : s.err = none := not_not.1 (mt herr.2 hs)
  exact ⟨hcfg, hregs, hpc, hmem, hcur, hlabels, by simp [hnone, hst]⟩

/-- The image of a program that fits lies in the array, and the halt opcode of a legal configuration
is a word (R5, R6, R253). -/
theorem loadImage_keeps_inv (hi : s.Inv) (hwords : ∀ v ∈ words, IsWord s.cfg.w v)
    (hfit : words.length + 1 ≤ s.cfg.codeCap) : (loadImage words s).Inv := by
  obtain ⟨hcfg, hregs, hpc, ⟨hwf, hcells⟩, hrest⟩ := hi
  have hhalt : IsWord s.cfg.w s.cfg.opc.halt := opcode_isWord hcfg .halt
  have hmem : MemOk (loadImage words s) := by
    refine ⟨memWriteList_wf _ _ hwf, fun cell hcell => ?_⟩
    rw [loadImage_cfg]
    rcases mem_memWriteList hcell with hold | ⟨-, hlt, hv⟩
    · exact hcells cell hold
    · rw [List.length_append, List.length_singleton] at hlt
      rw [List.mem_append, List.mem_singleton] at hv
      unfold Cfg.codeCap Cfg.codeEnd at hfit
      exact ⟨by omega, hv.elim (hwords _) fun h => h ▸ hhalt⟩
  rw [loadImage_eq] at hmem ⊢
  exact ⟨hcfg, hregs, hpc, hmem, hrest⟩

theorem hostLoadCode_keeps_inv (hi : s.Inv) (h : hostLoadCode words s = .next t) : t.Inv := by
  obtain ⟨⟨hidle, hwords⟩, ⟨hfit, rfl⟩ | ⟨-, rfl⟩⟩ := hostLoadCode_eq_next.1 h
  · refine setStatus_keeps_inv (loadImage_keeps_inv hi hwords hfit) ?_ nofun
    rw [loadImage_eq, hidle]
    nofun
  · exact takeFault_keeps_inv hi _

end HostOps

/-- Settles O48: each operation that has a transition is one whose writes keep the invariant. -/
theorem hostOperationsKeepTheInvariant : Obligations.HostOperationsKeepTheInvariant := by
  intro s t op hi h
  cases op with
  | reset =>
    obtain ⟨hcfg, -⟩ := hi
    cases h
    exact resetOf_inv hcfg (s.launch + 1)
  | loadCode words => exact hostLoadCode_keeps_inv hi h
  | preset i v =>
    obtain ⟨⟨-, hv⟩, d, -, rfl⟩ := hostPreset_eq_next.1 h
    exact setReg_keeps_inv hi d hv
  | start =>
    obtain ⟨hloaded, rfl⟩ := hostStart_eq_next.1 h
    exact setStatus_keeps_inv hi (by simp [hloaded]) nofun
  | step => exact stepKeepsTheInvariant s t hi h

/-- Settles O16: the step is of a running core, where HALT ends in Halted and every other
instruction leaves the status or takes a fault, as the fetch may. -/
theorem faultHasNoOtherEffect : Obligations.FaultHasNoOtherEffect := by
  intro s t h hfaulted
  obtain ⟨hs, ⟨i, -, hx⟩ | ⟨e, -, rfl⟩⟩ := step_cases h
  · by_cases hhalt : i = .halt
    · subst hhalt; cases hx; cases hfaulted
    · obtain ⟨u, hu, hends⟩ := exec_runsOnOrFaults (s := s) hhalt
      cases hx.symm.trans hu
      rcases hends with ⟨hst, -⟩ | hfault
      · rw [hst, hs] at hfaulted
        cases hfaulted
      · exact hfault
  · exact ⟨e, rfl⟩

/-- Settles O55: the two transitions of LoadCode, told apart by the room for the halt word. -/
theorem loadCodeWritesTheImage : Obligations.LoadCodeWritesTheImage := by
  intro s words hidle hwords
  rcases Nat.lt_or_ge s.cfg.codeCap (words.length + 1) with hlarge | hfit
  · exact ⟨_, hostLoadCode_eq_next.2 ⟨⟨hidle, hwords⟩, .inr ⟨hlarge, rfl⟩⟩,
      fun hfit => absurd hlarge (Nat.not_lt.2 hfit), fun _ => rfl⟩
  · refine ⟨_, hostLoadCode_eq_next.2 ⟨⟨hidle, hwords⟩, .inl ⟨hfit, rfl⟩⟩,
      fun _ => ⟨fun k hk => ?_, ?_, fun a ha => ?_, ?_⟩,
      fun hlarge => absurd hlarge (Nat.not_lt.2 hfit)⟩
    · rw [memRead_setStatus, memRead_loadImage (by simp; omega), List.getElem_append_left hk]
    · rw [memRead_setStatus, memRead_loadImage (by simp), List.getElem_concat_length rfl]
    · rw [memRead_setStatus, memRead_loadImage_outside ha]
    · rw [loadImage_eq]
      rfl

/-- Started at CODE_START on an image that begins with an instruction's words, the core runs the
instruction (R251, R253, R256). -/
theorem step_of_loaded_image {r u : State} {i : Instr} {rest : List Nat} (hc : r.cfg.Wf)
    (hw : i.wellFormed r.cfg = true) (hpc : r.pc = r.cfg.codeStart)
    (hfit : (encode r.cfg i ++ rest).length + 1 ≤ r.cfg.codeCap)
    (hu : u = setStatus .running (setStatus .loaded (loadImage (encode r.cfg i ++ rest) r))) :
    step u = exec i u := by
  have hin : r.pc + (encode r.cfg i).length ≤ r.cfg.memoryMax := by
    rw [List.length_append] at hfit
    unfold Cfg.codeCap Cfg.codeEnd at hfit
    omega
  have himage (k : Nat) (hk : k < (encode r.cfg i).length) :
      memRead (loadImage (encode r.cfg i ++ rest) r) (r.pc + k) = (encode r.cfg i)[k] := by
    rw [hpc, memRead_loadImage (by simp; omega), List.getElem_append_left (by simp; omega),
      List.getElem_append_left hk]
  rw [loadImage_eq] at hu himage
  subst hu
  exact stepRunsTheEncodedInstruction _ i hc rfl hw hin himage

/-- Settles O58: the image begins with the instruction's words, at CODE_START, the pc of the reset
state. -/
theorem loadedProgramRunsFromItsFirstWord : Obligations.LoadedProgramRunsFromItsFirstWord := by
  intro s i rest hc hw hrest hfit
  have hwords : ∀ v ∈ encode s.cfg i ++ rest, IsWord s.cfg.w v :=
    List.forall_mem_append.2 ⟨encode_isWord hc hw, hrest⟩
  refine ⟨hostReset s, _, _, rfl, hostLoadCode_eq_next.2 ⟨⟨rfl, hwords⟩, .inl ⟨hfit, rfl⟩⟩,
    hostStart_eq_next.2 ⟨rfl, rfl⟩, ?_, rfl,
    step_of_loaded_image (r := hostReset s) hc hw rfl hfit rfl⟩
  rw [setStatus_pc, setStatus_pc, loadImage_pc]
  rfl

/-- Settles O9: `step` asks for `running` (R110). -/
theorem noStepBeforeStart : Obligations.NoStepBeforeStart := by
  rintro s (hs | hs) <;> rw [step, hs]

/-- Settles O56: the transitions of Start and Preset in `loaded`, and none elsewhere. -/
theorem hostFollowsTheProtocol : Obligations.HostFollowsTheProtocol := fun _ =>
  ⟨fun hs => ⟨hostStart_eq_next.2 ⟨hs, rfl⟩,
      fun k _ hv => hostPreset_eq_next.2 ⟨⟨hs, hv⟩, k, rfl, rfl⟩⟩,
    fun hs => ⟨hostStart_of_not_loaded hs, fun _ _ => hostPreset_of_not_loaded hs⟩,
    fun _ _ hk => hostPreset_of_index_above hk,
    fun hs _ => hostLoadCode_of_not_idle hs⟩

end Sys2Proof.Machine
